-- ==== Sys2Proof/Word.lean ====
section
/-! DEFINITION. The word types of the block and the four-byte masking key (spec/00_scope.md R5, R6). -/

namespace Sys2Proof

/-- A byte; bit 7 is the most significant (R6). -/
abbrev Byte := BitVec 8

/-- A 64-bit quantity: `LEN_W` = 64 for `length`, `remaining`, `body_delivered` (R5, D1), and the
width of a register word (R39). -/
abbrev Word64 := BitVec 64

/-- The masking key, `mask_key[0]` (first on the wire) to `mask_key[3]` (R27). It is four bytes kept
in order, never a number (R53). -/
structure Key where
  k0 : Byte
  k1 : Byte
  k2 : Byte
  k3 : Byte
  deriving DecidableEq, Repr, Inhabited

/-- The key of an initialised state: four zero bytes (R40). -/
def Key.zero : Key := ⟨0, 0, 0, 0⟩

end Sys2Proof
end

