-- ==== Sys2Proof/Config.lean ====
section
/-! DEFINITION. What a build fixes (the open parameters), the records of the nine interface channels
(spec/20_memory.md R57), and the free values: constants without a body that stand for `any value`. -/

namespace Sys2Proof

/-- The open parameters of rule R5. They are data of a build: no step writes them. -/
structure Params where
  /-- `TAG_W`, the width of the opaque `tag` (D17). -/
  tagW : Nat := 64
  /-- `CNT_W`, the width of a buffer length and of the consumed count (D18). -/
  cntW : Nat := 32
  deriving DecidableEq, Repr, Inhabited

/-- The constraints of the table of open parameters in spec/92_eei_decisions.md: both widths at least 1.
DEDUCED (log 5): `TAG_W` is at most 64, because register 8 and `wdata` are 64 bits wide (R39, R57). -/
abbrev Params.ok (P : Params) : Prop := 1 ≤ P.tagW ∧ P.tagW ≤ 64 ∧ 1 ≤ P.cntW

/-- The kinds of event the block emits (R93). Kind code 3 is never emitted and has no constructor (R96). -/
inductive EventKind where
  | header
  | body
  | frameEnd
  deriving DecidableEq, Repr, Inhabited

/-- One record of channel EVT (R57). Which fields a kind uses is rule R93. -/
structure EvtRecord where
  kind    : EventKind
  opcode  : BitVec 4
  fin     : Bool
  hasMask : Bool
  length  : Word64
  maskKey : Key
  offset  : Word64
  k       : Nat
  deriving DecidableEq, Repr, Inhabited

/-- One record of channel RSP, the completion of a command (R57). -/
structure RspRecord where
  consumed : Nat
  newRot   : BitVec 2
  deriving DecidableEq, Repr, Inhabited

/-- One record of channel CMD (R57). Which operands a code uses is rule R94. -/
structure CmdRecord where
  code : BitVec 3
  cb   : BitVec 3 := 0
  key  : BitVec 32 := 0
  rot  : BitVec 2 := 0
  n    : Nat := 0
  deriving DecidableEq, Repr, Inhabited

/-- One request of channel REG (R57). -/
structure RegRecord where
  number : BitVec 4
  write  : Bool := false
  wdata  : Word64 := 0
  deriving DecidableEq, Repr, Inhabited

/-- What the host sends: one transaction of RST, CMD (with its bytes on DIN), EVT_RSP or REG (R57, R58). -/
inductive HostRecord where
  | rst
  | cmd (c : CmdRecord) (din : List Byte)
  | evtRsp (abort : BitVec 1)
  | reg (r : RegRecord)
  deriving DecidableEq, Repr, Inhabited

/-- What the block sends: an EVT record with its run on EDATA, the bytes of DOUT, a completion on RSP,
or the answer to a register read (R57, R58). -/
inductive OutRecord where
  | evt (r : EvtRecord) (edata : List Byte)
  | dout (bytes : List Byte)
  | rsp (r : RspRecord)
  | rdata (v : Word64)
  deriving DecidableEq, Repr, Inhabited

/-- FREE VALUE (log 3). The fields of an EVT record that its kind does not use hold any value (R93, U10). -/
opaque Config.freeEvt : Nat → EvtRecord

/-- FREE VALUE (log 3). The fields of an RSP record that its command does not use hold any value (R57, U10). -/
opaque Config.freeRsp : Nat → RspRecord

/-- FREE VALUE (log 3). A read of a reserved register number returns any value (R96, R172). -/
opaque Config.freeRead : Nat → Word64

/-- FREE VALUE (log 4). `tag` after power-on reset and before its first write (R40, U7). -/
opaque Config.freeTag : Nat → Word64

end Sys2Proof
end

