-- ==== Sys2Proof/Machine/Operands.lean ====
section
/-! DEFINITION. Operand assembly: the bit fields of the wire bytes, the packing of the key, the length
accumulation, the run length, the indexing of the key and the truncation of the tag
(spec/30_encoding.md R81 to R87, spec/41_masking_engine.md R151, R153). -/

namespace Sys2Proof.Machine

/-- FIN, bit 7 of a B0 byte (R81). -/
def b0Fin (b : Byte) : Bool := b.getLsbD 7
/-- RSV, bits 6 to 4 of a B0 byte (R81): reserved, ignored. -/
def b0Rsv (b : Byte) : BitVec 3 := b.extractLsb' 4 3
/-- OPCODE, bits 3 to 0 of a B0 byte (R81). -/
def b0Opcode (b : Byte) : BitVec 4 := b.extractLsb' 0 4
/-- A B0 byte from its fields (R81). -/
def b0Byte (fin : Bool) (rsv : BitVec 3) (opcode : BitVec 4) : Byte := BitVec.ofBool fin ++ rsv ++ opcode

/-- MASK, bit 7 of a B1 byte (R82). -/
def b1Mask (b : Byte) : Bool := b.getLsbD 7
/-- LEN7, bits 6 to 0 of a B1 byte (R82). -/
def b1Len7 (b : Byte) : BitVec 7 := b.extractLsb' 0 7
/-- A B1 byte from its fields (R82). -/
def b1Byte (mask : Bool) (len7 : BitVec 7) : Byte := BitVec.ofBool mask ++ len7

/-- The short form of the length: `zext_64` of LEN7 (R87, R117). -/
def shortLength (len7 : BitVec 7) : Word64 := len7.zeroExtend 64

/-- The extended form: `(length << 8) | zext_64(e)`, big-endian accumulation (R53, R87, R120). -/
def accumulateLength (length : Word64) (e : Byte) : Word64 := (length <<< 8) ||| e.zeroExtend 64

/-- The 32-bit view of the key, first wire byte in bits 31 to 24 (R39, R53, R94). -/
def keyWord (k : Key) : BitVec 32 := k.k0 ++ k.k1 ++ k.k2 ++ k.k3

/-- The key a 32-bit operand stands for: `key[31:24]` is key byte 0 (R94). -/
def keyOfWord (w : BitVec 32) : Key :=
  ⟨w.extractLsb' 24 8, w.extractLsb' 16 8, w.extractLsb' 8 8, w.extractLsb' 0 8⟩

/-- Key byte `j mod 4` (R151). -/
def keyByte (k : Key) (j : Nat) : Byte :=
  match j % 4 with
  | 0 => k.k0
  | 1 => k.k1
  | 2 => k.k2
  | _ => k.k3

/-- The key with byte `j mod 4` replaced (R27, R121). -/
def setKeyByte (k : Key) (j : Nat) (b : Byte) : Key :=
  match j % 4 with
  | 0 => { k with k0 := b }
  | 1 => { k with k1 := b }
  | 2 => { k with k2 := b }
  | _ => { k with k3 := b }

/-- The transform of rule R151: `Dst(i) = Src(i) XOR key[(i + rot) mod 4]`. -/
def maskBytes (key : Key) (rot : BitVec 2) (src : List Byte) : List Byte :=
  src.mapIdx fun i b => b ^^^ keyByte key (i + rot.toNat)

/-- The rotation update of rule R153: `(rot + n) mod 4`, held in 2 bits. -/
def nextRotation (rot : BitVec 2) (n : Nat) : BitVec 2 := rot + BitVec.ofNat 2 n

/-- The run of rule R122: `k = min(remaining, n - pos)`, compared as naturals (R134). -/
def runLength (remaining : Word64) (available : Nat) : Nat := min remaining.toNat available

/-- `wdata[TAG_W-1:0]`, zero-extended to a register word (R39, R173). -/
def truncateTag (P : Params) (v : Word64) : Word64 := BitVec.ofNat 64 (v.toNat % 2 ^ P.tagW)

/-- A count held in `CNT_W` bits (R57). -/
def truncateCount (P : Params) (n : Nat) : Nat := n % 2 ^ P.cntW

end Sys2Proof.Machine
end

