-- ==== Sys2Proof/Syntax.lean ====
section
/-! DEFINITION. The instructions: one constructor for every row of spec/opcode_table.json. By rule R95
they are of three kinds: the parser's steps, the host's operations and the outward events. -/

namespace Sys2Proof

/-- The operations of the block, in the order of the opcode table. -/
inductive Instr where
  /-- START: a B0 byte, `frrroooo` (R81, R116). -/
  | start (fin : Bool) (rsv : BitVec 3) (opcode : BitVec 4)
  /-- HEAD.S7: a B1 byte, `mlllllll` with LEN7 at most 125 (R82, R117). -/
  | headS7 (mask : Bool) (len7 : BitVec 7)
  /-- HEAD.X16: a B1 byte `m1111110` (R118). -/
  | headX16 (mask : Bool)
  /-- HEAD.X64: a B1 byte `m1111111` (R119). -/
  | headX64 (mask : Bool)
  /-- LENB: one byte of EXT16 or EXT64 (R83, R84, R120). -/
  | lenb (e : Byte)
  /-- MASKB: one byte of KEY (R85, R121). -/
  | maskb (k : Byte)
  /-- BODYRUN: a run of payload bytes (R86, R122). -/
  | bodyrun (p : List Byte)
  /-- BADPHASE: the invalid phase; no byte is taken (R123). -/
  | badphase
  /-- INIT, command 0 (R170). -/
  | init
  /-- SETTINGS, command 1 (R171). -/
  | settings (cb : BitVec 3)
  /-- EXECUTE, command 2, with the bytes of the buffer (R110). -/
  | execute (buf : List Byte)
  /-- MASK_BOUND, command 3, with the source bytes (R152). -/
  | maskBound (src : List Byte)
  /-- MASK_FREE, command 4, with key, rotation and source bytes (R151). -/
  | maskFree (key : Key) (rot : BitVec 2) (src : List Byte)
  /-- CMD.RESERVED, commands 5 to 7 (R96). -/
  | cmdReserved (code : BitVec 3)
  /-- HEADER, event kind 0 (R124). -/
  | header
  /-- BODY, event kind 1 (R125). -/
  | body
  /-- END, event kind 2 (R127). -/
  | frameEnd
  /-- EVT.RESERVED, event kind 3, never emitted (R93, R96). -/
  | evtReserved
  /-- EVT_RSP, the answer to the outstanding event; `true` is Abort (R174). -/
  | evtRsp (abort : Bool)
  /-- READ PHASE, register 0 (R39, R172). -/
  | readPhase
  /-- READ FLAGS, register 1 (R39, R172). -/
  | readFlags
  /-- READ LENGTH, register 2 (R39, R172). -/
  | readLength
  /-- READ REMAINING, register 3 (R39, R172). -/
  | readRemaining
  /-- READ MASK_KEY, register 4 (R39, R172). -/
  | readMaskKey
  /-- READ MASK_ROT, register 5 (R39, R172). -/
  | readMaskRot
  /-- READ BODY_DELIVERED, register 6 (R39, R172). -/
  | readBodyDelivered
  /-- READ ERROR, register 7 (R39, R172). -/
  | readError
  /-- READ TAG, register 8 (R39, R172). -/
  | readTag
  /-- READ CB_EN, register 9 (R39, R172). -/
  | readCbEn
  /-- TAG, the write of register 8 (R173). -/
  | tag (wdata : Word64)
  /-- REG.RESERVED, an access to register 10 to 15 (R96). -/
  | regReserved (number : BitVec 4) (write : Bool)
  /-- RESET, power-on reset on channel RST (R220). -/
  | reset
  deriving DecidableEq, Repr

end Sys2Proof
end

