-- ==== Sys2Proof/WellFormed.lean ====
section
/-! DEFINITION. Which terms of `Instr` are instructions: the constraints the opcode table and
spec/30_encoding.md put on the fields. -/

namespace Sys2Proof

/-- LEN7 is a length, not a sentinel (R82, R95). -/
def len7Ok (len7 : BitVec 7) : Bool := decide (len7.toNat ≤ 125)

/-- The buffer length `n` is a natural below `2^CNT_W` (R5, R50). -/
def countOk (P : Params) (bytes : List Byte) : Bool := decide (bytes.length < 2 ^ P.cntW)

/-- The fields of an instruction lie in the ranges its encoding admits. -/
def Instr.wf (P : Params) : Instr → Bool
  | .headS7 _ len7 => len7Ok len7
  | .bodyrun p => !p.isEmpty
  | .execute buf => countOk P buf
  | .maskBound src => countOk P src
  | .maskFree _ _ src => countOk P src
  | .cmdReserved code => decide (5 ≤ code.toNat)
  | .regReserved number _ => decide (10 ≤ number.toNat)
  | .start _ _ _ | .headX16 _ | .headX64 _ | .lenb _ | .maskb _ | .badphase | .init | .settings _
  | .header | .body | .frameEnd | .evtReserved | .evtRsp _ | .readPhase | .readFlags | .readLength
  | .readRemaining | .readMaskKey | .readMaskRot | .readBodyDelivered | .readError | .readTag
  | .readCbEn | .tag _ | .reset => true

end Sys2Proof
end

