-- ==== Sys2Proof/Decode.lean ====
section
/-! DEFINITION. The decoder, total and rejecting by name, and the encoder written from the same tables
(spec/30_encoding.md R80 to R96). What the block fetches is one of three things (R95): the phase with
the byte or run in front of the parser, the code of an event, or a record from the host. -/

namespace Sys2Proof

/-- The codes of the five phases (R91); 5, 6 and 7 are invalid. -/
abbrev phaseStart : BitVec 3 := 0
/-- Head = 1 (R91). -/
abbrev phaseHead : BitVec 3 := 1
/-- Length = 2 (R91). -/
abbrev phaseLength : BitVec 3 := 2
/-- Mask = 3 (R91). -/
abbrev phaseMask : BitVec 3 := 3
/-- Body = 4 (R91). -/
abbrev phaseBody : BitVec 3 := 4

/-- An encoded instruction. -/
inductive Encoded where
  /-- The `phase` register and the bytes the step takes: one in a header phase, the run in Body, none
  when the phase is invalid (R95). -/
  | step (phase : BitVec 3) (bytes : List Byte)
  /-- The 2-bit kind code of an event (R93). -/
  | event (kind : BitVec 2)
  /-- A record on one of the host's channels (R57). -/
  | host (r : HostRecord)
  deriving DecidableEq, Repr

/-- Why the decoder rejects. -/
inductive DecodeError where
  /-- A header phase takes exactly one byte and Body at least one (R55); never produced by the fetch. -/
  | byteCount
  /-- The `n` of a CMD record is not the number of bytes on DIN, or does not fit `CNT_W` bits (R50, R58). -/
  | dinCount
  /-- A write to register 0 to 7 or 9 (R96, U9). -/
  | readOnlyRegister (number : BitVec 4)
  deriving DecidableEq, Repr

/-- A B1 byte: LEN7 selects the step (R95, R111). -/
def decodeB1 (b : Byte) : Instr :=
  if (Machine.b1Len7 b).toNat = 126 then .headX16 (Machine.b1Mask b)
  else if (Machine.b1Len7 b).toNat = 127 then .headX64 (Machine.b1Mask b)
  else .headS7 (Machine.b1Mask b) (Machine.b1Len7 b)

/-- The step a byte of a header phase selects (R95). -/
def decodeByte (phase : BitVec 3) (b : Byte) : Instr :=
  match phase.toNat with
  | 0 => .start (Machine.b0Fin b) (Machine.b0Rsv b) (Machine.b0Opcode b)
  | 1 => decodeB1 b
  | 2 => .lenb b
  | _ => .maskb b

/-- BADPHASE takes no byte (R95). -/
def decodeNoByte : List Byte → Except DecodeError Instr
  | [] => .ok .badphase
  | _ :: _ => .error .byteCount

/-- BODYRUN takes a run of at least one byte (R55, R122). -/
def decodeRun : List Byte → Except DecodeError Instr
  | [] => .error .byteCount
  | b :: p => .ok (.bodyrun (b :: p))

/-- A header phase takes one byte (R55). -/
def decodeOneByte (phase : BitVec 3) : List Byte → Except DecodeError Instr
  | [] => .error .byteCount
  | b :: [] => .ok (decodeByte phase b)
  | _ :: _ :: _ => .error .byteCount

/-- The parser's step, selected by `phase` and the bytes in front (R95, R111). -/
def decodeStep (phase : BitVec 3) (bytes : List Byte) : Except DecodeError Instr :=
  if 5 ≤ phase.toNat then decodeNoByte bytes
  else if phase = phaseBody then decodeRun bytes
  else decodeOneByte phase bytes

/-- The event a kind code names (R93). -/
def decodeEvent (kind : BitVec 2) : Instr :=
  match kind.toNat with
  | 0 => .header
  | 1 => .body
  | 2 => .frameEnd
  | _ => .evtReserved

/-- The bytes on DIN are the `n` bytes the CMD record announces (R50, R58). -/
def dinOk (P : Params) (c : CmdRecord) (din : List Byte) : Bool :=
  decide (c.n = din.length) && countOk P din

/-- A CMD record (R94). Operands a command does not use are ignored. -/
def decodeCmd (P : Params) (c : CmdRecord) (din : List Byte) : Except DecodeError Instr :=
  match c.code.toNat with
  | 0 => .ok .init
  | 1 => .ok (.settings c.cb)
  | 2 => if dinOk P c din then .ok (.execute din) else .error .dinCount
  | 3 => if dinOk P c din then .ok (.maskBound din) else .error .dinCount
  | 4 => if dinOk P c din then .ok (.maskFree (Machine.keyOfWord c.key) c.rot din) else .error .dinCount
  | _ => .ok (.cmdReserved c.code)

/-- A read on channel REG, by register number (R39, R96, R172). -/
def decodeRead (number : BitVec 4) : Instr :=
  match number.toNat with
  | 0 => .readPhase
  | 1 => .readFlags
  | 2 => .readLength
  | 3 => .readRemaining
  | 4 => .readMaskKey
  | 5 => .readMaskRot
  | 6 => .readBodyDelivered
  | 7 => .readError
  | 8 => .readTag
  | 9 => .readCbEn
  | _ => .regReserved number false

/-- A write on channel REG: register 8 only (R96, R173). -/
def decodeWrite (number : BitVec 4) (wdata : Word64) : Except DecodeError Instr :=
  if number.toNat = 8 then .ok (.tag wdata)
  else if 10 ≤ number.toNat then .ok (.regReserved number true)
  else .error (.readOnlyRegister number)

/-- A record from the host (R57). -/
def decodeHost (P : Params) : HostRecord → Except DecodeError Instr
  | .rst => .ok .reset
  | .cmd c din => decodeCmd P c din
  | .evtRsp a => .ok (.evtRsp (decide (a = 1)))
  | .reg r => if r.write then decodeWrite r.number r.wdata else .ok (decodeRead r.number)

/-- The decoder. -/
def decode (P : Params) : Encoded → Except DecodeError Instr
  | .step phase bytes => decodeStep phase bytes
  | .event kind => .ok (decodeEvent kind)
  | .host r => decodeHost P r

/-- A read record. -/
def readRecord (number : BitVec 4) : Encoded := .host (.reg { number := number })

/-- The encoder, from the same tables. BADPHASE has three selectors (5, 6, 7) and takes the first. -/
def encode : Instr → Encoded
  | .start fin rsv opcode => .step phaseStart [Machine.b0Byte fin rsv opcode]
  | .headS7 mask len7 => .step phaseHead [Machine.b1Byte mask len7]
  | .headX16 mask => .step phaseHead [Machine.b1Byte mask 126]
  | .headX64 mask => .step phaseHead [Machine.b1Byte mask 127]
  | .lenb e => .step phaseLength [e]
  | .maskb k => .step phaseMask [k]
  | .bodyrun p => .step phaseBody p
  | .badphase => .step 5 []
  | .init => .host (.cmd { code := 0 } [])
  | .settings cb => .host (.cmd { code := 1, cb := cb } [])
  | .execute buf => .host (.cmd { code := 2, n := buf.length } buf)
  | .maskBound src => .host (.cmd { code := 3, n := src.length } src)
  | .maskFree key rot src =>
      .host (.cmd { code := 4, key := Machine.keyWord key, rot := rot, n := src.length } src)
  | .cmdReserved code => .host (.cmd { code := code } [])
  | .header => .event 0
  | .body => .event 1
  | .frameEnd => .event 2
  | .evtReserved => .event 3
  | .evtRsp abort => .host (.evtRsp (BitVec.ofBool abort))
  | .readPhase => readRecord 0
  | .readFlags => readRecord 1
  | .readLength => readRecord 2
  | .readRemaining => readRecord 3
  | .readMaskKey => readRecord 4
  | .readMaskRot => readRecord 5
  | .readBodyDelivered => readRecord 6
  | .readError => readRecord 7
  | .readTag => readRecord 8
  | .readCbEn => readRecord 9
  | .tag wdata => .host (.reg { number := 8, write := true, wdata := wdata })
  | .regReserved number write => .host (.reg { number := number, write := write })
  | .reset => .host .rst

/-- The encoded form a bare word of spec/opcode_table.json stands for. DESIGN CHOICE (log 12): the
table's words carry no channel, and one word is a row of several channels. A width of 1, 2, 3 or 4 bits
is read as EVT_RSP, EVT, CMD or REG (a read); any other width as the first channel of CMD, REG and B1
on which the low byte is a defined code. -/
def tableEncoding (nbits w : Nat) : Encoded :=
  match nbits with
  | 1 => .host (.evtRsp (BitVec.ofNat 1 w))
  | 2 => .event (BitVec.ofNat 2 w)
  | 3 => .host (.cmd { code := BitVec.ofNat 3 w } [])
  | 4 => readRecord (BitVec.ofNat 4 w)
  | _ =>
    if w % 256 < 5 then .host (.cmd { code := BitVec.ofNat 3 w } [])
    else if w % 256 < 16 then readRecord (BitVec.ofNat 4 w)
    else .step phaseHead [BitVec.ofNat 8 w]

/-- The instruction the decoder reads from a word of the opcode table. -/
def decodeTableWord (nbits w : Nat) : Option Instr :=
  match decode {} (tableEncoding nbits w) with
  | .ok i => some i
  | .error _ => none

end Sys2Proof
end

