-- ==== Sys2Proof/Machine/State.lean ====
section
/-! DEFINITION. The state of the block: the ParserState, `cb_en`, the ghost `aborted`, the execute
context, and the queues of the interface (spec/10_state.md R20 to R40, spec/20_memory.md R57). -/

namespace Sys2Proof.Machine

/-- The error kinds, `Ok` = 0 and `UnknownState` = 1 (R31, R92). -/
inductive ErrorKind where
  | ok
  | unknownState
  deriving DecidableEq, Repr

/-- ParserState, the eleven fields of rule R20. -/
structure ParserState where
  /-- The program counter of the block; 5, 6 and 7 are invalid (R21, R91). -/
  phase         : BitVec 3
  opcode        : BitVec 4
  fin           : Bool
  hasMask       : Bool
  length        : Word64
  remaining     : Word64
  maskKey       : Key
  maskRotation  : BitVec 2
  bodyDelivered : Word64
  error         : ErrorKind
  /-- The opaque tag in its low `TAG_W` bits (R32). -/
  tag           : Word64
  deriving DecidableEq, Repr

/-- The values INIT and power-on reset give every field but `tag` (R40). -/
def ParserState.initial (tag : Word64) : ParserState where
  phase := phaseStart
  opcode := 0
  fin := false
  hasMask := false
  length := 0
  remaining := 0
  maskKey := Key.zero
  maskRotation := 0
  bodyDelivered := 0
  error := .ok
  tag := tag

/-- A point of an EXECUTE at which an event is emitted (R112), with what the rule that reaches it does
after the answer. `body k` is the BODY event of a run of `k` bytes (R122). `frameEnd k` is an END after
which the step advances by `k`: the run's length after a run, 1 for a zero-length frame (R115, R122). -/
inductive EmitPoint where
  | header
  | body (k : Nat)
  | frameEnd (k : Nat)
  deriving DecidableEq, Repr

/-- Where the EXECUTE in progress stands: between two steps, at an `Emit` about to be made, or
suspended in an event that awaits its EVT_RSP (R34, R59, R112). -/
inductive Wait where
  | running
  | emitting (p : EmitPoint)
  | suspended (p : EmitPoint)
  deriving DecidableEq, Repr

/-- The execute context (R34): the buffer length `n`, the cursor `pos`, the bytes `buf[pos..n-1]` not
yet processed, and which event is outstanding. -/
structure ExecCtx where
  n    : Nat
  pos  : Nat
  rest : List Byte
  wait : Wait
  deriving DecidableEq, Repr

/-- The state of the machine. -/
structure State where
  /-- The one ParserState `S` (R20). -/
  ps         : ParserState
  /-- `cb_en` (R33): bit 0 HEADER, bit 1 BODY, bit 2 END. -/
  cbEn       : BitVec 3
  /-- The ghost flag `aborted` (R35). -/
  aborted    : Bool
  /-- Ghost (log 4): `tag` has been written since power-on, so a read returns it and not any value (U7). -/
  tagWritten : Bool
  /-- The execute context, while an EXECUTE is in progress (R34). -/
  ctx        : Option ExecCtx
  /-- What the host will send next, oldest first (R57, log 1). -/
  inbox      : List HostRecord
  /-- What the block has sent, oldest first (R57, log 2). -/
  out        : List OutRecord
  /-- The model's own: how many free values have been drawn (log 3). -/
  draw       : Nat
  /-- The open parameters of this build, constant (R5). -/
  params     : Params
  deriving DecidableEq, Repr

/-- The machine right after power-on reset (R40, R220). `tag` is DESIGN CHOICE 0 (log 4); no read
returns it before a write. The parameters are the defaults of rule R5. -/
def State.reset : State where
  ps := ParserState.initial 0
  cbEn := 0
  aborted := false
  tagWritten := false
  ctx := none
  inbox := []
  out := []
  draw := 0
  params := {}

/-- Why the machine stops with a fault: never. The one error the spec defines, UnknownState, ends an
EXECUTE and is recorded in `error` (R191), so it is a next state; nothing else faults (R193). Safe: a
type without values lets no claim lean on a fault. -/
inductive Fault where
  deriving DecidableEq, Repr

/-- Why an operation is given no step: the treatment `refuse` of spec/93_implementation_defined.md. All
are safe: the machine stops where the real block would do something the spec does not promise. -/
inductive Refusal where
  /-- An instruction without a meaning. Raised by no arm of this model. -/
  | notModelled (mnemonic : String)
  /-- INIT, SETTINGS, EXECUTE or another host operation while a command is in progress that does not
  admit it; raised by the host operations (R59, R62, R175; U3, U4). -/
  | concurrentUse
  /-- EXECUTE or MASK_BOUND while `aborted` is 1; raised by both (R175; U1). -/
  | afterAbort
  /-- MASK_BOUND while `error` is UnknownState or `phase` is invalid (R175; U2). -/
  | afterUnknownState
  /-- An operation on a state that is neither well formed, nor aborted, nor in error, idle or suspended, or a
  step whose `requires` fails (R37, R110, R120 to R122, R175; U6). -/
  | unreachableState
  /-- EVT_RSP with no event outstanding; raised by the event answer (R174, R175; U9). -/
  | noEventOutstanding
  /-- Command codes 5 to 7 (R96, R175; U9). -/
  | reservedCommand
  /-- Event kind 3, which is never emitted (R96). -/
  | reservedEvent
  /-- A write to register 10 to 15 (R96; U9). -/
  | reservedRegisterWrite
  /-- A write to register 0 to 7 or 9; raised by the step from the decoder's rejection (R96; U9). -/
  | readOnlyRegister
  /-- A CMD record whose `n` is not the number of DIN bytes or does not fit `CNT_W` bits; raised by the
  step from the decoder's rejection (R50, R58). -/
  | malformedTransaction
  /-- A parser step or an event where the phase, the bytes in front or the emission point do not select
  it (R95, R112). Raised by the meanings only; the fetch never brings one there. -/
  | notSelected
  deriving DecidableEq, Repr

/-- The outcome of one operation. -/
abbrev Result := Host.Outcome State Fault Refusal

end Sys2Proof.Machine
end

