-- ==== Sys2Proof/Machine/Admission.lean ====
section
/-! DEFINITION. The well-formedness predicate (spec/10_state.md R36, R37) and the table of what is
admitted when (spec/42_host_operations.md R175). -/

namespace Sys2Proof.Machine

/-- `WF` of rule R36 without its clauses on `mask_rotation`, the one thing MASK_BOUND moves (R152). -/
def wfCore (p : ParserState) : Bool :=
  decide (p.error = .ok) &&
  match p.phase.toNat with
  | 0 => decide (p.length = 0 ∧ p.remaining = 0)
  | 1 => decide (p.length = 0 ∧ p.remaining = 0 ∧ p.bodyDelivered = 0)
  | 2 => decide (1 ≤ p.remaining.toNat ∧ p.remaining.toNat ≤ 8 ∧
      p.length.toNat < 2 ^ (8 * (8 - p.remaining.toNat)) ∧ p.bodyDelivered = 0)
  | 3 => decide (p.hasMask = true ∧ 1 ≤ p.remaining.toNat ∧ p.remaining.toNat ≤ 4 ∧ p.bodyDelivered = 0)
  | 4 => decide (1 ≤ p.remaining.toNat ∧ p.remaining.toNat ≤ p.length.toNat ∧
      p.bodyDelivered.toNat = p.length.toNat - p.remaining.toNat)
  | _ => false

/-- The clauses of rule R36 on `mask_rotation`: it is 0 in Head, Length and Mask. -/
def wfRotation (p : ParserState) : Bool :=
  decide (p.phase = phaseHead ∨ p.phase = phaseLength ∨ p.phase = phaseMask → p.maskRotation = 0)

/-- `WF(S)`, rule R36 in full. -/
def wf (p : ParserState) : Bool := wfCore p && wfRotation p

/-- `phase` holds a code outside the five (R21, R91). -/
def invalidPhase (p : ParserState) : Bool := decide (5 ≤ p.phase.toNat)

/-- The state at the events of a zero-length frame (R124, R127): the phase is still the header phase,
Mask exactly when the frame is masked, and nothing remains. -/
def zeroFrame (p : ParserState) : Bool :=
  decide ((p.phase = phaseHead ∨ p.phase = phaseLength ∨ p.phase = phaseMask) ∧
    p.hasMask = decide (p.phase = phaseMask) ∧
    p.length = 0 ∧ p.remaining = 0 ∧ p.bodyDelivered = 0)

/-- The state at the END after the last run (R127). -/
def endOfRun (p : ParserState) : Bool :=
  decide (p.phase = phaseBody ∧ p.remaining = 0 ∧ p.length ≠ 0 ∧ p.bodyDelivered = p.length)

/-- The state at an emission point, with `avail` bytes from the cursor on (R124, R125, R127). The words of R124
that `mask_rotation` is 0 are left out, because MASK_BOUND is admitted during an event (R175, D21; log 6). -/
def pointOk (pt : EmitPoint) (p : ParserState) (avail : Nat) : Bool :=
  match pt with
  | .header => zeroFrame p ||
      (wfCore p && decide (p.phase = phaseBody ∧ p.remaining = p.length))
  | .body k => wfCore p && decide (p.phase = phaseBody ∧ k = runLength p.remaining avail)
  | .frameEnd k => (zeroFrame p && decide (k = 1)) || (endOfRun p && decide (1 ≤ k ∧ k ≤ avail))

/-- The state is what the rules say at the event the block has come to (R124, R125, R127). -/
def atEvent (s : State) : Bool :=
  match s.ctx with
  | some c => match c.wait with
    | .suspended pt => pointOk pt s.ps c.rest.length
    | .emitting pt => pointOk pt s.ps c.rest.length
    | .running => false
  | none => false

/-- R37 does not call the state unreachable at an event: it is aborted, in error, has an invalid phase, or
is what the rules say at the event. -/
abbrev EventState (s : State) : Prop :=
  s.aborted = true ∨ s.ps.error = .unknownState ∨ invalidPhase s.ps = true ∨ atEvent s = true

/-- The condition of the block: the columns of the table of rule R175, `running` (R59), the states that
rule and R37 call unreachable, idle and suspended, and `idleOutOfStep`: well formed but for `mask_rotation`,
which is what MASK_BOUND leaves between two chunks of a header (R152, U16). -/
inductive Condition where
  | idle
  | suspended
  | running
  | idleAborted
  | idleError
  | idleOutOfStep
  | idleUnreachable
  | suspendedUnreachable
  deriving DecidableEq, Repr

/-- The condition a state is in (R59, R175). An invalid phase counts as the column `error` = UnknownState.
The context alone makes a state suspended or running, and a suspended state is held to what R124, R125 and R127
say of the state at its event (log 20, DEDUCED). Among idle states `aborted` comes first, then the error, then WF of R36
(log 11, DEDUCED). -/
def condition (s : State) : Condition :=
  match s.ctx with
  | some c => match c.wait with
    | .suspended _ => if EventState s then .suspended else .suspendedUnreachable
    | .running => .running
    | .emitting _ => .running
  | none =>
    if s.aborted then .idleAborted
    else if s.ps.error = .unknownState ∨ invalidPhase s.ps = true then .idleError
    else if wf s.ps then .idle
    else if wfCore s.ps then .idleOutOfStep
    else .idleUnreachable

/-- The rows of the table of rule R175, less the reserved command, which is refused in every column. -/
inductive HostOp where
  | reset
  | init
  | settings
  | execute
  | maskBound
  | maskFree
  | read
  | tagWrite
  | answer
  deriving DecidableEq, Repr

/-- The table of rule R175. `running` is never visible to the host (R59) and admits reset alone. On the states
that are not WF the last sentence of the rule refuses every operation but INIT, reset and register access, and
R110 admits EXECUTE on none of them; MASK_BOUND alone goes on being admitted in `idleOutOfStep`, because U16
has a call after the next frame's START "defined by rule R152", which looks at neither `phase` nor WF (log 6). -/
def admits : HostOp → Condition → Bool
  | .reset, _ => true
  | .init, .idle => true
  | .init, .suspended => false
  | .init, .running => false
  | .init, .idleAborted => true
  | .init, .idleError => true
  | .init, .idleOutOfStep => true
  | .init, .idleUnreachable => true
  | .init, .suspendedUnreachable => false
  | .settings, .idle => true
  | .settings, .suspended => false
  | .settings, .running => false
  | .settings, .idleAborted => true
  | .settings, .idleError => true
  | .settings, .idleOutOfStep => false
  | .settings, .idleUnreachable => false
  | .settings, .suspendedUnreachable => false
  | .execute, .idle => true
  | .execute, .suspended => false
  | .execute, .running => false
  | .execute, .idleAborted => false
  | .execute, .idleError => true
  | .execute, .idleOutOfStep => false
  | .execute, .idleUnreachable => false
  | .execute, .suspendedUnreachable => false
  | .maskBound, .idle => true
  | .maskBound, .suspended => true
  | .maskBound, .running => false
  | .maskBound, .idleAborted => false
  | .maskBound, .idleError => false
  | .maskBound, .idleOutOfStep => true
  | .maskBound, .idleUnreachable => false
  | .maskBound, .suspendedUnreachable => false
  | .maskFree, .idle => true
  | .maskFree, .suspended => true
  | .maskFree, .running => false
  | .maskFree, .idleAborted => true
  | .maskFree, .idleError => true
  | .maskFree, .idleOutOfStep => false
  | .maskFree, .idleUnreachable => false
  | .maskFree, .suspendedUnreachable => false
  | .read, .idle => true
  | .read, .suspended => true
  | .read, .running => false
  | .read, .idleAborted => true
  | .read, .idleError => true
  | .read, .idleOutOfStep => true
  | .read, .idleUnreachable => true
  | .read, .suspendedUnreachable => true
  | .tagWrite, .idle => true
  | .tagWrite, .suspended => true
  | .tagWrite, .running => false
  | .tagWrite, .idleAborted => true
  | .tagWrite, .idleError => true
  | .tagWrite, .idleOutOfStep => true
  | .tagWrite, .idleUnreachable => true
  | .tagWrite, .suspendedUnreachable => true
  | .answer, .idle => false
  | .answer, .suspended => true
  | .answer, .running => false
  | .answer, .idleAborted => false
  | .answer, .idleError => false
  | .answer, .idleOutOfStep => false
  | .answer, .idleUnreachable => false
  | .answer, .suspendedUnreachable => false

/-- The name of a refusal in each column (U1 to U4, U6, U9). -/
def refusalOf : HostOp → Condition → Refusal
  | .answer, .suspendedUnreachable => .unreachableState
  | .answer, _ => .noEventOutstanding
  | .maskBound, .suspendedUnreachable => .unreachableState
  | .maskFree, .suspendedUnreachable => .unreachableState
  | _, .suspendedUnreachable => .concurrentUse
  | _, .suspended => .concurrentUse
  | _, .running => .concurrentUse
  | _, .idleAborted => .afterAbort
  | _, .idleError => .afterUnknownState
  | _, .idleOutOfStep => .unreachableState
  | _, .idleUnreachable => .unreachableState
  | _, .idle => .unreachableState

/-- Run an operation of the host where rule R175 admits it, and refuse it by name elsewhere. -/
def admitted (op : HostOp) (s : State) (act : Result) : Result :=
  if admits op (condition s) then act else .refused (refusalOf op (condition s))

end Sys2Proof.Machine
end

