-- ==== Sys2Proof/Machine/Flags.lean ====
section
/-! DEFINITION. The flags. There are no arithmetic condition codes (spec/10_state.md R30): the flags
are `fin`, `has_mask`, `error` and the ghost `aborted`, read here as register words, and the three
enable bits of `cb_en` (R33, R39, R93). -/

namespace Sys2Proof.Machine

/-- The enable bit of an event: bit 0 HEADER, bit 1 BODY, bit 2 END (R33, R93). -/
def eventEnabled (cbEn : BitVec 3) : EventKind → Bool
  | .header => cbEn.getLsbD 0
  | .body => cbEn.getLsbD 1
  | .frameEnd => cbEn.getLsbD 2

/-- The code of an error kind (R92). -/
def errorCode : ErrorKind → BitVec 1
  | .ok => 0
  | .unknownState => 1

/-- Register 1: `opcode` in bits 3 to 0, `fin` in bit 4, `has_mask` in bit 5 (R39). -/
def flagsWord (p : ParserState) : Word64 :=
  (BitVec.ofBool p.hasMask ++ BitVec.ofBool p.fin ++ p.opcode).zeroExtend 64

/-- Register 7: `error` in bit 0 (R39). -/
def errorWord (p : ParserState) : Word64 := (errorCode p.error).zeroExtend 64

end Sys2Proof.Machine
end

