-- ==== Sys2Proof/Machine/Ops.lean ====
section
/-! DEFINITION. The shared operations: the output channels, the cursor and the completion of an EXECUTE,
the event procedure and its continuations, the two exceptional outcomes, and the register read
(spec/40_frame_parser.md R111 to R115, spec/60_exceptions.md R190 to R197). -/

namespace Sys2Proof.Machine

/-- Send one record to the host. -/
def State.send (s : State) (r : OutRecord) : State := { s with out := s.out ++ [r] }

/-- Use up one free value. -/
def State.tick (s : State) : State := { s with draw := s.draw + 1 }

/-- Replace the ParserState. -/
def State.withPs (s : State) (p : ParserState) : State := { s with ps := p }

/-- Replace the execute context. -/
def State.withCtx (s : State) (c : Option ExecCtx) : State := { s with ctx := c }

/-- The completion of a command: one RSP record. Fields the command does not give are free (R57, U10). -/
def respond (consumed : Option Nat) (newRot : Option (BitVec 2)) (s : State) : State :=
  let free := Config.freeRsp s.draw
  (s.send (.rsp { consumed := consumed.getD (truncateCount s.params free.consumed),
                  newRot := newRot.getD free.newRot })).tick

/-- EXECUTE ends and returns `consumed`: the context is gone (R34) and RSP is sent (R58). -/
def finish (consumed : Nat) (s : State) : State := respond (some consumed) none (s.withCtx none)

/-- The context after `k` bytes have been taken. -/
def ExecCtx.advance (c : ExecCtx) (k : Nat) : ExecCtx :=
  { c with pos := c.pos + k, rest := c.rest.drop k, wait := .running }

/-- `Advance(k)`: the cursor moves by `k`; when the buffer is used up the loop ends and EXECUTE returns
`n` (R111, R131). -/
def advance (k : Nat) (c : ExecCtx) (s : State) : State :=
  if (c.rest.drop k).isEmpty then finish c.n s else s.withCtx (some (c.advance k))

/-- `Stop(d)`: EXECUTE ends now and returns `pos + d` (R111). -/
def stop (d : Nat) (c : ExecCtx) (s : State) : State := finish (c.pos + d) s

/-- The parser has reached an `Emit`: the event is the next thing that happens (R112). -/
def reachEmit (p : EmitPoint) (c : ExecCtx) (s : State) : State :=
  s.withCtx (some { c with wait := .emitting p })

/-- EnterStart, rule R113. -/
def enterStart (p : ParserState) : ParserState := { p with phase := phaseStart, length := 0, remaining := 0 }

/-- PostMask, rule R115, up to its first `Emit`: the move to Body comes before the HEADER event, and for
a zero-length frame the phase is still the header phase. -/
def postMask (c : ExecCtx) (s : State) : State :=
  if s.ps.length = 0 then reachEmit .header c s
  else reachEmit .header c (s.withPs { s.ps with phase := phaseBody, remaining := s.ps.length })

/-- PostLength, rule R114. -/
def postLength (c : ExecCtx) (s : State) : State :=
  if s.ps.hasMask then advance 1 c (s.withPs { s.ps with phase := phaseMask, remaining := 4 })
  else postMask c s

/-- The event of an emission point. -/
def EmitPoint.kind : EmitPoint → EventKind
  | .header => .header
  | .body _ => .body
  | .frameEnd _ => .frameEnd

/-- The EVT record of an event (R93, R112, R124, R125, R127): the fields its kind uses are copied from
the state, the others are free (U10). -/
def evtRecord (p : EmitPoint) (s : State) : EvtRecord :=
  let free := { Config.freeEvt s.draw with k := truncateCount s.params (Config.freeEvt s.draw).k }
  match p with
  | .header => { free with kind := .header, opcode := s.ps.opcode, fin := s.ps.fin,
                           hasMask := s.ps.hasMask, length := s.ps.length, maskKey := s.ps.maskKey }
  | .body k => { free with kind := .body, offset := s.ps.bodyDelivered, k := k }
  | .frameEnd _ => { free with kind := .frameEnd }

/-- The bytes on EDATA: the run `In(pos, k)` of a BODY event (R56, R57, R112). -/
def evtData (p : EmitPoint) (c : ExecCtx) : List Byte :=
  match p with
  | .header => []
  | .body k => c.rest.take k
  | .frameEnd _ => []

/-- After Continue the rule that emitted the event goes on at the line after its `Emit` (R197): after
HEADER into the frame or, for a zero-length frame, to END (R115); after BODY to the counters and, when
the frame is finished, to END (R122); after END to EnterStart. -/
def continueFrom (p : EmitPoint) (c : ExecCtx) (s : State) : State :=
  match p with
  | .header => if s.ps.length = 0 then reachEmit (.frameEnd 1) c s else advance 1 c s
  | .body k =>
    let p' := { s.ps with remaining := s.ps.remaining - BitVec.ofNat 64 k,
                          bodyDelivered := s.ps.bodyDelivered + BitVec.ofNat 64 k }
    if p'.remaining = 0 then reachEmit (.frameEnd k) c (s.withPs p') else advance k c (s.withPs p')
  | .frameEnd k => advance k c (s.withPs (enterStart s.ps))

/-- How far past the cursor the count of an abort lies: the byte of the step for HEADER and for the END
of a zero-length frame, the first byte of the run for BODY, its last byte for END after a run (R129). -/
def abortOffset : EmitPoint → Nat
  | .header => 0
  | .body _ => 0
  | .frameEnd k => k - 1

/-- The exceptional outcome CallbackAbort (R192, R196): `aborted` becomes 1, EXECUTE returns a short
count, and nothing else is written. -/
def callbackAbort (p : EmitPoint) (c : ExecCtx) (s : State) : State :=
  stop (abortOffset p) c { s with aborted := true }

/-- The exceptional outcome UnknownState (R191, R196): `error` is set and EXECUTE returns `pos`. -/
def unknownState (c : ExecCtx) (s : State) : State :=
  stop 0 c (s.withPs { s.ps with error := .unknownState })

/-- The return from an event (R174, R197): Continue goes on, Abort ends the EXECUTE. -/
def answerEvent (abort : Bool) (p : EmitPoint) (c : ExecCtx) (s : State) : State :=
  if abort then callbackAbort p c s else continueFrom p c s

/-- Emit, rule R112: an enabled event is sent and the parser is suspended; a disabled one counts as
answered Continue and nothing is sent (R194). -/
def emit (p : EmitPoint) (c : ExecCtx) (s : State) : State :=
  if eventEnabled s.cbEn p.kind then
    ((s.send (.evt (evtRecord p s) (evtData p c))).tick).withCtx (some { c with wait := .suspended p })
  else continueFrom p c s

/-- Run an event's meaning at the emission point the block has reached, if it is one of that kind. -/
def atEmit (kind : EventKind) (s : State) : Result :=
  match s.ctx with
  | some c => match c.wait with
    | .emitting p => if p.kind = kind then .next (emit p c s) else .refused .notSelected
    | .running => .refused .notSelected
    | .suspended _ => .refused .notSelected
  | none => .refused .notSelected

/-- Run a step that rule R95 selects: an EXECUTE is in progress between two steps, `phase` is the one
named, and the bytes the step takes are the ones in front of the cursor. -/
def selected (phase : BitVec 3) (bytes : List Byte) (s : State) (act : ExecCtx → Result) : Result :=
  match s.ctx with
  | some c =>
    if c.wait = .running ∧ s.ps.phase = phase ∧ bytes.isPrefixOf c.rest = true then act c
    else .refused .notSelected
  | none => .refused .notSelected

/-- The `requires` of a step (R120, R121, R122); where it fails the state is one no rule reaches (U6). -/
def requires (p : Prop) [Decidable p] (act : Result) : Result :=
  if p then act else .refused .unreachableState

/-- A register read answers on REG and writes nothing (R172). -/
def readRegister (value : Word64) (s : State) : Result :=
  admitted .read s (.next (s.send (.rdata value)))

/-- INIT's effect on ParserState: every field but `tag` (R40, R170). -/
def initialised (p : ParserState) : ParserState := ParserState.initial p.tag

end Sys2Proof.Machine
end

