-- ==== Sys2Proof/Machine/Commands.lean ====
section
/-! DEFINITION. INIT, SETTINGS, EXECUTE, the reserved commands and power-on reset
(spec/42_host_operations.md R170, R171; spec/40_frame_parser.md R110; spec/70_reset_and_hazards.md R220). -/

namespace Sys2Proof.Machine

/-- INIT, rule R170: every field of ParserState but `tag`, and `aborted`; not `cb_en`. -/
def execInit (s : State) : Result :=
  admitted .init s
    (.next (respond none none { s with ps := initialised s.ps, aborted := false }))

/-- SETTINGS, rule R171. -/
def execSettings (cb : BitVec 3) (s : State) : Result :=
  admitted .settings s (.next (respond none none { s with cbEn := cb }))

/-- EXECUTE, rules R110 and R111: the loop begins at `pos` 0, and does not run for `n` = 0. -/
def execExecute (buf : List Byte) (s : State) : Result :=
  admitted .execute s (.next (
    if buf.isEmpty then finish 0 s
    else s.withCtx (some { n := buf.length, pos := 0, rest := buf, wait := .running })))

/-- CMD.RESERVED: commands 5 to 7 are refused in every condition (R96, R175). -/
def execCmdReserved (_code : BitVec 3) (_s : State) : Result := .refused .reservedCommand

/-- RESET, rule R220: always taken; an EXECUTE in progress is abandoned without completion and its
outstanding event withdrawn; `tag` becomes unspecified. -/
def execReset (s : State) : Result :=
  .next (State.tick { s with
    ps := ParserState.initial (truncateTag s.params (Config.freeTag s.draw)),
    cbEn := 0, aborted := false, tagWritten := false, ctx := none })

end Sys2Proof.Machine
end

