-- ==== Sys2Proof/Machine/Events.lean ====
section
/-! DEFINITION. The three events, the reserved kind, and the event answer (spec/40_frame_parser.md R112,
R124, R125, R127; spec/42_host_operations.md R174). -/

namespace Sys2Proof.Machine

/-- HEADER, rule R124. -/
def execHeader (s : State) : Result := atEmit .header s

/-- BODY, rule R125. -/
def execBody (s : State) : Result := atEmit .body s

/-- END, rule R127. -/
def execFrameEnd (s : State) : Result := atEmit .frameEnd s

/-- EVT.RESERVED: kind 3 is never emitted, and the spec gives it no effect (R93, R96). -/
def execEvtReserved (_s : State) : Result := .refused .reservedEvent

/-- EVT_RSP, rule R174: admitted only while an event is outstanding, and given to the rule that emitted it. -/
def execEvtRsp (abort : Bool) (s : State) : Result :=
  admitted .answer s (match s.ctx with
    | some c => match c.wait with
      | .suspended p => .next (answerEvent abort p c s)
      | .running => .refused .noEventOutstanding
      | .emitting _ => .refused .noEventOutstanding
    | none => .refused .noEventOutstanding)

end Sys2Proof.Machine
end

