-- ==== Sys2Proof/Machine/Masking.lean ====
section
/-! DEFINITION. The two masking operations (spec/41_masking_engine.md R151, R152). -/

namespace Sys2Proof.Machine

/-- The transform of rule R151 as a transaction: the result on DOUT, the new rotation in RSP. -/
def maskTransaction (key : Key) (rot : BitVec 2) (src : List Byte) (s : State) : State :=
  respond none (some (nextRotation rot src.length)) (s.send (.dout (maskBytes key rot src)))

/-- MASK_FREE, rule R151: no state of the parser is read or written. -/
def execMaskFree (key : Key) (rot : BitVec 2) (src : List Byte) (s : State) : Result :=
  admitted .maskFree s (.next (maskTransaction key rot src s))

/-- MASK_BOUND, rule R152: key and rotation from the state, the rotation written back. Its own condition
`aborted` = 0 (R35, R152) stands beside the table of R175, whose "yes" for a suspended block means that this
rule applies. -/
def execMaskBound (src : List Byte) (s : State) : Result :=
  if s.aborted then .refused .afterAbort
  else admitted .maskBound s (.next (maskTransaction s.ps.maskKey s.ps.maskRotation src
    (s.withPs { s.ps with maskRotation := nextRotation s.ps.maskRotation src.length })))

end Sys2Proof.Machine
end

