-- ==== Sys2Proof/Machine/Parser.lean ====
section
/-! DEFINITION. The eight parser steps (spec/40_frame_parser.md R116 to R123). -/

namespace Sys2Proof.Machine

/-- START, rule R116. RSV is dropped; the per-frame counters are cleared here (D5). -/
def execStart (fin : Bool) (rsv : BitVec 3) (opcode : BitVec 4) (s : State) : Result :=
  selected phaseStart [b0Byte fin rsv opcode] s fun c =>
    .next (advance 1 c (s.withPs { s.ps with
      opcode := opcode, fin := fin, maskRotation := 0, bodyDelivered := 0, phase := phaseHead }))

/-- HEAD.S7, rule R117. LEN7 of 126 or 127 does not select it (R95). -/
def execHeadS7 (mask : Bool) (len7 : BitVec 7) (s : State) : Result :=
  selected phaseHead [b1Byte mask len7] s fun c =>
    if len7Ok len7 then
      .next (postLength c (s.withPs { s.ps with hasMask := mask, length := shortLength len7 }))
    else .refused .notSelected

/-- HEAD.X16, rule R118. -/
def execHeadX16 (mask : Bool) (s : State) : Result :=
  selected phaseHead [b1Byte mask 126] s fun c =>
    .next (advance 1 c (s.withPs { s.ps with
      hasMask := mask, length := 0, remaining := 2, phase := phaseLength }))

/-- HEAD.X64, rule R119. -/
def execHeadX64 (mask : Bool) (s : State) : Result :=
  selected phaseHead [b1Byte mask 127] s fun c =>
    .next (advance 1 c (s.withPs { s.ps with
      hasMask := mask, length := 0, remaining := 8, phase := phaseLength }))

/-- LENB, rule R120; it requires `1 <= remaining <= 8`. -/
def execLenb (e : Byte) (s : State) : Result :=
  selected phaseLength [e] s fun c =>
    requires (1 ≤ s.ps.remaining.toNat ∧ s.ps.remaining.toNat ≤ 8) (
      let s' := s.withPs { s.ps with
        length := accumulateLength s.ps.length e, remaining := s.ps.remaining - 1 }
      .next (if s'.ps.remaining = 0 then postLength c s' else advance 1 c s'))

/-- MASKB, rule R121; it requires `1 <= remaining <= 4`. -/
def execMaskb (k : Byte) (s : State) : Result :=
  selected phaseMask [k] s fun c =>
    requires (1 ≤ s.ps.remaining.toNat ∧ s.ps.remaining.toNat ≤ 4) (
      let s' := s.withPs { s.ps with
        maskKey := setKeyByte s.ps.maskKey (4 - s.ps.remaining.toNat) k, remaining := s.ps.remaining - 1 }
      .next (if s'.ps.remaining = 0 then postMask c s' else advance 1 c s'))

/-- BODYRUN, rule R122, up to its BODY event: the run is `k = min(remaining, n - pos)` bytes, and the
counters move after the event (`continueFrom`). It requires `1 <= remaining`. -/
def execBodyrun (p : List Byte) (s : State) : Result :=
  selected phaseBody p s fun c =>
    requires (1 ≤ s.ps.remaining.toNat) (
      if p.length = runLength s.ps.remaining c.rest.length ∧ p ≠ [] then .next (reachEmit (.body p.length) c s)
      else .refused .notSelected)

/-- BADPHASE, rule R123: a byte is pending, the phase is invalid, and no byte is taken. -/
def execBadphase (s : State) : Result :=
  selected s.ps.phase [] s fun c =>
    if invalidPhase s.ps = true ∧ c.rest ≠ [] then .next (unknownState c s) else .refused .notSelected

end Sys2Proof.Machine
end

