-- ==== Sys2Proof/Machine/Registers.lean ====
section
/-! DEFINITION. The register map (spec/10_state.md R39) and the operations on channel REG
(spec/42_host_operations.md R172, R173). -/

namespace Sys2Proof.Machine

/-- READ PHASE: `phase` in bits 2 to 0. -/
def execReadPhase (s : State) : Result := readRegister (s.ps.phase.zeroExtend 64) s

/-- READ FLAGS: `opcode`, `fin`, `has_mask`. -/
def execReadFlags (s : State) : Result := readRegister (flagsWord s.ps) s

/-- READ LENGTH. -/
def execReadLength (s : State) : Result := readRegister s.ps.length s

/-- READ REMAINING. -/
def execReadRemaining (s : State) : Result := readRegister s.ps.remaining s

/-- READ MASK_KEY: `mask_key[0]` in bits 31 to 24; the register as it stands, stale or not (U13). -/
def execReadMaskKey (s : State) : Result := readRegister ((keyWord s.ps.maskKey).zeroExtend 64) s

/-- READ MASK_ROT: `mask_rotation` in bits 1 to 0. -/
def execReadMaskRot (s : State) : Result := readRegister (s.ps.maskRotation.zeroExtend 64) s

/-- READ BODY_DELIVERED. -/
def execReadBodyDelivered (s : State) : Result := readRegister s.ps.bodyDelivered s

/-- READ ERROR: `error` in bit 0. -/
def execReadError (s : State) : Result := readRegister (errorWord s.ps) s

/-- READ TAG: `tag`; before the first write after power-on any value of `TAG_W` bits (R40, U7). -/
def execReadTag (s : State) : Result :=
  if s.tagWritten then readRegister s.ps.tag s
  else readRegister (truncateTag s.params (Config.freeTag s.draw)) s.tick

/-- READ CB_EN: `cb_en` in bits 2 to 0. -/
def execReadCbEn (s : State) : Result := readRegister (s.cbEn.zeroExtend 64) s

/-- TAG, rule R173: `S.tag <- wdata[TAG_W-1:0]`. -/
def execTag (wdata : Word64) (s : State) : Result :=
  admitted .tagWrite s
    (.next { s with ps := { s.ps with tag := truncateTag s.params wdata }, tagWritten := true })

/-- REG.RESERVED, rules R96 and R172: a read of register 10 to 15 returns any value, a write is refused. -/
def execRegReserved (_number : BitVec 4) (write : Bool) (s : State) : Result :=
  if write then .refused .reservedRegisterWrite
  else readRegister (Config.freeRead s.draw) s.tick

end Sys2Proof.Machine
end

