-- ==== Sys2Proof/Machine/Dispatch.lean ====
section
/-! DEFINITION. The meaning of every instruction, one arm per row of the opcode table. -/

namespace Sys2Proof.Machine

def exec (i : Instr) (s : State) : Host.Outcome State Fault Refusal :=
  match i with
  | .start fin rsv opcode => Sys2Proof.Machine.execStart fin rsv opcode s
  | .headS7 mask len7 => Sys2Proof.Machine.execHeadS7 mask len7 s
  | .headX16 mask => Sys2Proof.Machine.execHeadX16 mask s
  | .headX64 mask => Sys2Proof.Machine.execHeadX64 mask s
  | .lenb e => Sys2Proof.Machine.execLenb e s
  | .maskb k => Sys2Proof.Machine.execMaskb k s
  | .bodyrun p => Sys2Proof.Machine.execBodyrun p s
  | .badphase => Sys2Proof.Machine.execBadphase s
  | .init => Sys2Proof.Machine.execInit s
  | .settings cb => Sys2Proof.Machine.execSettings cb s
  | .execute buf => Sys2Proof.Machine.execExecute buf s
  | .maskBound src => Sys2Proof.Machine.execMaskBound src s
  | .maskFree key rot src => Sys2Proof.Machine.execMaskFree key rot src s
  | .cmdReserved code => Sys2Proof.Machine.execCmdReserved code s
  | .header => Sys2Proof.Machine.execHeader s
  | .body => Sys2Proof.Machine.execBody s
  | .frameEnd => Sys2Proof.Machine.execFrameEnd s
  | .evtReserved => Sys2Proof.Machine.execEvtReserved s
  | .evtRsp abort => Sys2Proof.Machine.execEvtRsp abort s
  | .readPhase => Sys2Proof.Machine.execReadPhase s
  | .readFlags => Sys2Proof.Machine.execReadFlags s
  | .readLength => Sys2Proof.Machine.execReadLength s
  | .readRemaining => Sys2Proof.Machine.execReadRemaining s
  | .readMaskKey => Sys2Proof.Machine.execReadMaskKey s
  | .readMaskRot => Sys2Proof.Machine.execReadMaskRot s
  | .readBodyDelivered => Sys2Proof.Machine.execReadBodyDelivered s
  | .readError => Sys2Proof.Machine.execReadError s
  | .readTag => Sys2Proof.Machine.execReadTag s
  | .readCbEn => Sys2Proof.Machine.execReadCbEn s
  | .tag wdata => Sys2Proof.Machine.execTag wdata s
  | .regReserved number write => Sys2Proof.Machine.execRegReserved number write s
  | .reset => Sys2Proof.Machine.execReset s

end Sys2Proof.Machine
end

