-- ==== Sys2Proof/Machine/Fetch.lean ====
section
/-! DEFINITION. What the block does next: the parser's own step or event while an EXECUTE runs
(spec/40_frame_parser.md R111, R112), otherwise the next record of the host (spec/20_memory.md R59). -/

namespace Sys2Proof.Machine

/-- The 2-bit code of an event kind (R93). -/
def eventCode : EventKind → BitVec 2
  | .header => 0
  | .body => 1
  | .frameEnd => 2

/-- The bytes in front of the parser that its step takes (R55, R111): the run in Body, none with an
invalid phase, else one byte. -/
def bytesInFront (p : ParserState) (rest : List Byte) : List Byte :=
  if invalidPhase p then []
  else if p.phase = phaseBody then rest.take (runLength p.remaining rest.length)
  else rest.take 1

/-- What the block fetches. -/
inductive Fetch where
  /-- Nothing: the block is idle or suspended and the host has sent nothing (R204, R235). -/
  | waiting
  /-- The cursor has reached the end of the buffer: the loop of R111 ends. -/
  | loopEnd (c : ExecCtx)
  /-- An encoded instruction, and the state without it. -/
  | word (e : Encoded) (s : State)

/-- The host's next record, taken only when the block is idle or suspended (R59). -/
def fetchHost (s : State) : Fetch :=
  match s.inbox with
  | [] => .waiting
  | r :: rs => .word (.host r) { s with inbox := rs }

/-- The fetch. -/
def fetch (s : State) : Fetch :=
  match s.ctx with
  | none => fetchHost s
  | some c => match c.wait with
    | .suspended _ => fetchHost s
    | .emitting p => .word (.event (eventCode p.kind)) s
    | .running =>
      if c.rest.isEmpty then .loopEnd c else .word (.step s.ps.phase (bytesInFront s.ps c.rest)) s

/-- The refusal a rejection of the decoder becomes. -/
def rejection : DecodeError → Refusal
  | .byteCount => .unreachableState
  | .dinCount => .malformedTransaction
  | .readOnlyRegister _ => .readOnlyRegister

/-- One step from what was fetched. -/
def runFetched (s : State) : Fetch → Result
  | .waiting => .next s
  | .loopEnd c => .next (finish c.n s)
  | .word e s' =>
    match decode s.params e with
    | .ok i => exec i s'
    | .error r => .refused (rejection r)

/-- The counter a step of a given phase needs in `remaining` for the step to be one it requires. -/
def presentedRemaining (phase : BitVec 3) (bytes : List Byte) (remaining : Word64) : Word64 :=
  if phase = phaseLength then 8
  else if phase = phaseMask then 4
  else if phase = phaseBody then BitVec.ofNat 64 bytes.length
  else remaining

/-- A context in which a parser step or an event comes next. -/
def presentedCtx (bytes : List Byte) (wait : Wait) : ExecCtx :=
  let rest := if bytes.isEmpty then [0] else bytes
  { n := rest.length, pos := 0, rest := rest, wait := wait }

/-- The context in which the host's next record is taken (R59): a suspended one stays, a running one
goes. -/
def hostCtx (s : State) : Option ExecCtx :=
  match s.ctx with
  | none => none
  | some c => match c.wait with
    | .suspended _ => some c
    | .running => none
    | .emitting _ => none

/-- The state at the HEADER of an unmasked zero-length frame (R124), in which an event is outstanding. -/
def presentedHeader (p : ParserState) : ParserState :=
  { p with phase := phaseHead, hasMask := false, length := 0, remaining := 0, bodyDelivered := 0 }

/-- `s` with an encoded instruction placed where the next step fetches it: for a parser step the phase,
the byte or run in front of the cursor and a running EXECUTE; for an event the emission point; for the
host's operations the head of the inbox, with the block idle or suspended, and suspended for an event
answer, in a state in which that event can be outstanding. -/
def present (e : Encoded) (s : State) : State :=
  match e with
  | .step phase bytes =>
    { s with ctx := some (presentedCtx bytes .running),
             ps := { s.ps with phase := phase, remaining := presentedRemaining phase bytes s.ps.remaining } }
  | .event kind =>
    match kind.toNat with
    | 0 => s.withCtx (some (presentedCtx [] (.emitting .header)))
    | 1 => s.withCtx (some (presentedCtx [] (.emitting (.body 1))))
    | 2 => s.withCtx (some (presentedCtx [] (.emitting (.frameEnd 1))))
    | _ => s
  | .host (.evtRsp a) =>
    { s with ctx := some (presentedCtx [] (.suspended .header)), ps := presentedHeader s.ps,
             inbox := .evtRsp a :: s.inbox }
  | .host r => { s with ctx := hostCtx s, inbox := r :: s.inbox }

end Sys2Proof.Machine
end

