-- ==== Sys2Proof/Machine/Step.lean ====
section
/-! DEFINITION. One step of the machine: fetch, decode, execute. -/

namespace Sys2Proof.Machine

/-- One step. -/
def step (s : State) : Host.Outcome State Fault Refusal := runFetched s (fetch s)

/-- `s` with the instruction of a table word placed where `step` fetches its next instruction (log 12). -/
def State.withFetchWord (s : State) (nbits w : Nat) : State := present (tableEncoding nbits w) s

end Sys2Proof.Machine
end

