-- ==== Sys2Proof/Safety.lean ====
section
/-! DEFINITION. What claims are stated in: the invariant of the machine, the frame of a step, the way
an EXECUTE moves or ends, and the machine driven by a host that answers Continue. -/

namespace Sys2Proof.Machine

/-! ### The invariant (spec/10_state.md R36, R37) -/

/-- The cursor of an EXECUTE in progress (R34): a byte is pending, `pos` and the bytes left make up `n`,
and a run lies within the bytes left (R134). -/
def cursorOk (c : ExecCtx) : Bool :=
  decide (c.rest ≠ [] ∧ c.pos + c.rest.length = c.n) &&
  match c.wait with
  | .running => true
  | .emitting .header => true
  | .suspended .header => true
  | .emitting (.body k) => decide (1 ≤ k ∧ k ≤ c.rest.length)
  | .suspended (.body k) => decide (1 ≤ k ∧ k ≤ c.rest.length)
  | .emitting (.frameEnd k) => decide (1 ≤ k ∧ k ≤ c.rest.length)
  | .suspended (.frameEnd k) => decide (1 ≤ k ∧ k ≤ c.rest.length)

/-- What an Abort can leave (R37): a well-formed state, or one that fails WF in one way only, `remaining` = 0
at an event of a zero-length frame or at the END after the last run. -/
def abortedShape (p : ParserState) : Bool := wfCore p || zeroFrame p || endOfRun p

/-- The invariant: the parameters are legal, `tag` fits `TAG_W`, no error is stored, `phase` is one of
the five; idle, the state is well formed, but for the `mask_rotation` a MASK_BOUND may have moved, or aborted
with the shape R37 gives; in an EXECUTE, nothing is aborted, the cursor is in range, `n` fits `CNT_W`, and the
state is well formed in full between steps (R37) and what the rules say at each event. -/
def State.inv (s : State) : Bool :=
  decide (s.params.ok ∧ s.ps.tag.toNat < 2 ^ s.params.tagW ∧ s.ps.error = .ok ∧ s.ps.phase.toNat ≤ 4) &&
  match s.ctx with
  | none => if s.aborted then abortedShape s.ps else wfCore s.ps
  | some c => !s.aborted && cursorOk c && decide (c.n < 2 ^ s.params.cntW) &&
    match c.wait with
    | .running => wf s.ps
    | .emitting pt => pointOk pt s.ps c.rest.length
    | .suspended pt => pointOk pt s.ps c.rest.length

/-! ### What an operation leaves alone and how an EXECUTE moves -/

/-- Everything but ParserState, the execute context and the output is unchanged. -/
abbrev SameHost (s t : State) : Prop :=
  t.cbEn = s.cbEn ∧ t.aborted = s.aborted ∧ t.tagWritten = s.tagWritten ∧ t.inbox = s.inbox ∧
  t.params = s.params

/-- EXECUTE has ended and returned `consumed` (R58). -/
def EndedWith (consumed : Nat) (s t : State) : Prop :=
  t.ctx = none ∧ ∃ rot, t.out = s.out ++ [.rsp { consumed := consumed, newRot := rot }]

/-- The cursor has moved by `k`, and EXECUTE has returned `n` if that used the buffer up (R111). -/
def AdvancedBy (k : Nat) (c : ExecCtx) (s t : State) : Prop :=
  if k < c.rest.length then
    t.ctx = some { n := c.n, pos := c.pos + k, rest := c.rest.drop k, wait := .running } ∧ t.out = s.out
  else EndedWith c.n s t

/-- The parser has reached an `Emit`, with the cursor where it was and nothing sent yet (R112). -/
abbrev ReachesEmit (p : EmitPoint) (c : ExecCtx) (s t : State) : Prop :=
  t.ctx = some { n := c.n, pos := c.pos, rest := c.rest, wait := .emitting p } ∧ t.out = s.out

/-- The step of a phase is selected on the given bytes (R95): an EXECUTE is between two steps, `phase`
holds the phase, and the bytes stand in front of the cursor. -/
abbrev Selects (s : State) (c : ExecCtx) (phase : BitVec 3) (bytes : List Byte) : Prop :=
  s.ctx = some c ∧ c.wait = .running ∧ s.ps.phase = phase ∧ bytes <+: c.rest

/-- The block is suspended in an event (R59). -/
abbrev SuspendedAt (s : State) (c : ExecCtx) (p : EmitPoint) : Prop :=
  s.ctx = some c ∧ c.wait = .suspended p

/-- A command has completed: RSP was sent and nothing else (R57). -/
def Responded (s t : State) : Prop := ∃ r, t.out = s.out ++ [.rsp r]

/-- The block is idle in one of the columns of rule R175 that admit SETTINGS and MASK_FREE: aborted, in
error, with an invalid phase, or well formed. -/
abbrev IdleInTable (s : State) : Prop :=
  s.ctx = none ∧ (s.aborted = true ∨ s.ps.error = .unknownState ∨ 5 ≤ s.ps.phase.toNat ∨ wf s.ps = true)

/-- The block is suspended in some event. -/
def Suspended (s : State) : Prop := ∃ c p, SuspendedAt s c p

/-- Masking in several calls that carry the rotation (R154): all the bytes, and the last rotation. -/
def maskParts (key : Key) : BitVec 2 → List (List Byte) → List Byte × BitVec 2
  | rot, [] => ([], rot)
  | rot, p :: ps =>
    let later := maskParts key (nextRotation rot p.length) ps
    (maskBytes key rot p ++ later.1, later.2)

/-- Key byte `i`, for `i` below 4 (R27). -/
def keyAt (key : Key) (i : Nat) : Byte := [key.k0, key.k1, key.k2, key.k3].getD i 0

/-! ### The machine driven by a host that answers Continue (R66, D28) -/

/-- One step, or the answer Continue when an event is outstanding. -/
def drive (s : State) : Result :=
  match s.ctx with
  | none => step s
  | some c => match c.wait with
    | .suspended _ => exec (.evtRsp false) s
    | .running => step s
    | .emitting _ => step s

/-- `k` driven steps. -/
def driveN : Nat → State → Result
  | 0, s => .next s
  | k + 1, s => match drive s with
    | .next t => driveN k t
    | .fault f => .fault f
    | .refused r => .refused r

/-- EXECUTE of `buf` from `s`, every event answered Continue, ends in `t` within `k` driven steps. -/
def RunsTo (buf : List Byte) (s : State) (k : Nat) (t : State) : Prop :=
  ∃ s', exec (.execute buf) s = .next s' ∧ driveN k s' = .next t ∧ t.ctx = none

/-- What a host sees of events when runs are cut into bytes: the HEADER fields, each payload byte with
its offset in the frame, END. -/
inductive Item where
  | header (opcode : BitVec 4) (fin hasMask : Bool) (length : Word64) (key : Key)
  | payload (offset : Word64) (b : Byte)
  | frameEnd
  deriving DecidableEq, Repr

/-- The items of one record. -/
def itemsOf : OutRecord → List Item
  | .evt r data => match r.kind with
    | .header => [.header r.opcode r.fin r.hasMask r.length r.maskKey]
    | .body => data.mapIdx fun i b => .payload (r.offset + BitVec.ofNat 64 i) b
    | .frameEnd => [.frameEnd]
  | .dout _ => []
  | .rsp _ => []
  | .rdata _ => []

/-- The items of a run of records. -/
def items (o : List OutRecord) : List Item := o.flatMap itemsOf

/-- The consumed counts of the completions in a run of records. -/
def counts : List OutRecord → List Nat
  | [] => []
  | .rsp r :: o => r.consumed :: counts o
  | .evt _ _ :: o => counts o
  | .dout _ :: o => counts o
  | .rdata _ :: o => counts o

/-- Rule R132 read over a run of records, with all three events enabled: `none` between frames, and
inside one the declared length and the bytes delivered so far. A run may stop inside a frame, but not
between its last payload byte and its END. -/
def framesOk : Option (Nat × Nat) → List OutRecord → Bool
  | none, [] => true
  | some (len, got), [] => decide (got < len)
  | st, .evt r data :: o => match st, r.kind with
    | none, .header => framesOk (some (r.length.toNat, 0)) o
    | some (len, got), .body =>
        decide (r.offset.toNat = got ∧ r.k = data.length ∧ 1 ≤ r.k ∧ got + r.k ≤ len) &&
        framesOk (some (len, got + r.k)) o
    | some (len, got), .frameEnd => decide (got = len) && framesOk none o
    | none, .body => false
    | none, .frameEnd => false
    | some _, .header => false
  | st, .dout _ :: o => framesOk st o
  | st, .rsp _ :: o => framesOk st o
  | st, .rdata _ :: o => framesOk st o

end Sys2Proof.Machine
end

