-- ==== Sys2Proof/Certificates/Slice0/Obligations.lean ====
section
/-! DEFINITION. The statements for the provers. -/

open Sys2Proof Sys2Proof.Machine

/-! ### Encoding -/

/-- Decoding the encoding of any well-formed instruction gives it back, every operand at every value. -/
def Obligations.DecodeEncodeRoundTrip : Prop :=
  ∀ (P : Params) (i : Instr), i.wf P = true → decode P (encode i) = .ok i

/-- Whatever the decoder accepts is a well-formed instruction. -/
def Obligations.DecodeYieldsWellFormed : Prop :=
  ∀ (P : Params) (e : Encoded) (i : Instr), decode P e = .ok i → i.wf P = true

/-- No wire bit is dropped by decoding: the phase and the bytes are those of the instruction's encoding. -/
def Obligations.DecodeKeepsWireBits : Prop :=
  ∀ (P : Params) (phase : BitVec 3) (bytes : List Byte) (i : Instr), phase.toNat ≤ 4 →
    decode P (.step phase bytes) = .ok i → encode i = .step phase bytes

/-- R95 with the fields of R81 and R82: which step each phase and byte select, and with which fields. -/
def Obligations.StepSelection : Prop :=
  ∀ (P : Params) (b : Byte),
    decode P (.step phaseStart [b]) =
      .ok (.start (decide (128 ≤ b.toNat)) (BitVec.ofNat 3 (b.toNat / 16)) (BitVec.ofNat 4 b.toNat)) ∧
    (b.toNat % 128 ≤ 125 → decode P (.step phaseHead [b]) =
      .ok (.headS7 (decide (128 ≤ b.toNat)) (BitVec.ofNat 7 b.toNat))) ∧
    (b.toNat % 128 = 126 → decode P (.step phaseHead [b]) = .ok (.headX16 (decide (128 ≤ b.toNat)))) ∧
    (b.toNat % 128 = 127 → decode P (.step phaseHead [b]) = .ok (.headX64 (decide (128 ≤ b.toNat)))) ∧
    (b.toNat % 128 ≤ 125 ↔ b ≠ 0x7E ∧ b ≠ 0x7F ∧ b ≠ 0xFE ∧ b ≠ 0xFF) ∧
    decode P (.step phaseLength [b]) = .ok (.lenb b) ∧
    decode P (.step phaseMask [b]) = .ok (.maskb b) ∧
    (∀ p : List Byte, decode P (.step phaseBody (b :: p)) = .ok (.bodyrun (b :: p))) ∧
    (∀ phase : BitVec 3, 5 ≤ phase.toNat → decode P (.step phase []) = .ok .badphase)

/-- Words written out from the spec's encodings decode to the instructions they stand for. -/
def Obligations.SpecWordsDecode : Prop :=
  decode {} (.step 0 [0b10000001]) = .ok (.start true 0 1) ∧
  decode {} (.step 1 [0b10000101]) = .ok (.headS7 true 5) ∧
  decode {} (.step 1 [0b01111110]) = .ok (.headX16 false) ∧
  decode {} (.step 1 [0b11111111]) = .ok (.headX64 true) ∧
  decode {} (.host (.cmd { code := 0b001, cb := 0b101 } [])) = .ok (.settings 0b101) ∧
  decode {} (.host (.cmd { code := 0b100, key := 0x37FA213D, rot := 2, n := 1 } [0x4D])) =
    .ok (.maskFree ⟨0x37, 0xFA, 0x21, 0x3D⟩ 2 [0x4D]) ∧
  decode {} (.event 0b10) = .ok .frameEnd ∧
  decode {} (.host (.reg { number := 0b1000, write := true, wdata := 0x1234 })) = .ok (.tag 0x1234) ∧
  decode {} (.host (.reg { number := 0b0110 })) = .ok .readBodyDelivered

/-- Channel CMD: the five commands by code, the operands each uses, and no others (R94). -/
def Obligations.CommandDecoding : Prop :=
  ∀ (P : Params) (c : CmdRecord) (din : List Byte), c.n = din.length → din.length < 2 ^ P.cntW →
    (c.code = 0 → decode P (.host (.cmd c din)) = .ok .init) ∧
    (c.code = 1 → decode P (.host (.cmd c din)) = .ok (.settings c.cb)) ∧
    (c.code = 2 → decode P (.host (.cmd c din)) = .ok (.execute din)) ∧
    (c.code = 3 → decode P (.host (.cmd c din)) = .ok (.maskBound din)) ∧
    (c.code = 4 → decode P (.host (.cmd c din)) = .ok (.maskFree
      ⟨BitVec.ofNat 8 (c.key.toNat / 2 ^ 24), BitVec.ofNat 8 (c.key.toNat / 2 ^ 16),
       BitVec.ofNat 8 (c.key.toNat / 2 ^ 8), BitVec.ofNat 8 c.key.toNat⟩ c.rot din)) ∧
    (5 ≤ c.code.toNat → decode P (.host (.cmd c din)) = .ok (.cmdReserved c.code))

/-! ### The step -/

/-- One step fetches, decodes and executes. Idle or suspended, it takes the host's next record, and
waits when there is none; at an emission point it runs that event; in a running EXECUTE it runs the step
of the phase on the bytes in front: one byte, in Body the run, with an invalid phase none. That the host's
records wait in an inbox and that an event is a step of its own are the model's choices (logs 1, 7). -/
def Obligations.StepRunsDecodedInstruction : Prop :=
  ∀ (s : State) (i : Instr),
    (∀ r rs, s.ctx = none ∨ Suspended s → s.inbox = r :: rs → decode s.params (.host r) = .ok i →
      step s = exec i { s with inbox := rs }) ∧
    (s.ctx = none ∨ Suspended s → s.inbox = [] → step s = .next s) ∧
    (∀ c, s.ctx = some c → c.wait = .emitting .header → step s = exec .header s) ∧
    (∀ c k, s.ctx = some c → c.wait = .emitting (.body k) → step s = exec .body s) ∧
    (∀ c k, s.ctx = some c → c.wait = .emitting (.frameEnd k) → step s = exec .frameEnd s) ∧
    (∀ c bytes, s.ctx = some c → c.wait = .running → c.rest ≠ [] →
      bytes = (if 5 ≤ s.ps.phase.toNat then []
        else if s.ps.phase = phaseBody then c.rest.take (min s.ps.remaining.toNat c.rest.length)
        else c.rest.take 1) →
      decode s.params (.step s.ps.phase bytes) = .ok i → step s = exec i s)

/-- A context between two steps with no byte left ends with `n`. No operation reaches such a context:
`advance` ends the EXECUTE in the step that takes the last byte (`AdvancedBy`), and that this step ends it with
`n` all the same is the model's choice (log 19, DESIGN CHOICE), read from the loop of R111. -/
def Obligations.LoopEndReturnsN : Prop :=
  ∀ (s : State) (c : ExecCtx), s.ctx = some c → c.wait = .running → c.rest = [] →
    ∃ t, step s = .next t ∧ t.ps = s.ps ∧ SameHost s t ∧ EndedWith c.n s t

/-! ### The parser's steps -/

/-- START. -/
def Obligations.StartResult : Prop :=
  ∀ (s : State) (c : ExecCtx) (fin : Bool) (rsv : BitVec 3) (opcode : BitVec 4),
    Selects s c phaseStart [b0Byte fin rsv opcode] →
    ∃ t, exec (.start fin rsv opcode) s = .next t ∧
      t.ps = { s.ps with opcode := opcode, fin := fin, maskRotation := 0, bodyDelivered := 0,
                         phase := phaseHead } ∧
      SameHost s t ∧ AdvancedBy 1 c s t

/-- HEAD.S7, with the three arms of the post-length branch. -/
def Obligations.HeadS7Result : Prop :=
  ∀ (s : State) (c : ExecCtx) (mask : Bool) (len7 : BitVec 7), len7.toNat ≤ 125 →
    Selects s c phaseHead [b1Byte mask len7] →
    ∃ t, exec (.headS7 mask len7) s = .next t ∧ SameHost s t ∧
      (mask = true →
        t.ps = { s.ps with hasMask := true, length := BitVec.ofNat 64 len7.toNat, phase := phaseMask,
                           remaining := 4 } ∧ AdvancedBy 1 c s t) ∧
      (mask = false → len7 ≠ 0 →
        t.ps = { s.ps with hasMask := false, length := BitVec.ofNat 64 len7.toNat, phase := phaseBody,
                           remaining := BitVec.ofNat 64 len7.toNat } ∧ ReachesEmit .header c s t) ∧
      (mask = false → len7 = 0 →
        t.ps = { s.ps with hasMask := false, length := 0 } ∧ ReachesEmit .header c s t)

/-- HEAD.X16 and HEAD.X64. -/
def Obligations.HeadSentinelResult : Prop :=
  ∀ (s : State) (c : ExecCtx) (mask : Bool),
    (Selects s c phaseHead [b1Byte mask 126] →
      ∃ t, exec (.headX16 mask) s = .next t ∧
        t.ps = { s.ps with hasMask := mask, length := 0, remaining := 2, phase := phaseLength } ∧
        SameHost s t ∧ AdvancedBy 1 c s t) ∧
    (Selects s c phaseHead [b1Byte mask 127] →
      ∃ t, exec (.headX64 mask) s = .next t ∧
        t.ps = { s.ps with hasMask := mask, length := 0, remaining := 8, phase := phaseLength } ∧
        SameHost s t ∧ AdvancedBy 1 c s t)

/-- LENB, with the arms of the post-length branch on the last byte. -/
def Obligations.LenbResult : Prop :=
  ∀ (s : State) (c : ExecCtx) (e : Byte) (len : Word64), Selects s c phaseLength [e] →
    1 ≤ s.ps.remaining.toNat → s.ps.remaining.toNat ≤ 8 →
    len = (s.ps.length <<< 8) ||| BitVec.ofNat 64 e.toNat →
    ∃ t, exec (.lenb e) s = .next t ∧ SameHost s t ∧
      (s.ps.remaining ≠ 1 →
        t.ps = { s.ps with length := len, remaining := s.ps.remaining - 1 } ∧ AdvancedBy 1 c s t) ∧
      (s.ps.remaining = 1 → s.ps.hasMask = true →
        t.ps = { s.ps with length := len, phase := phaseMask, remaining := 4 } ∧ AdvancedBy 1 c s t) ∧
      (s.ps.remaining = 1 → s.ps.hasMask = false → len ≠ 0 →
        t.ps = { s.ps with length := len, phase := phaseBody, remaining := len } ∧
        ReachesEmit .header c s t) ∧
      (s.ps.remaining = 1 → s.ps.hasMask = false → len = 0 →
        t.ps = { s.ps with length := 0, remaining := 0 } ∧ ReachesEmit .header c s t)

/-- MASKB: the key byte at index `4 - remaining`, and the post-mask branch on the fourth. -/
def Obligations.MaskbResult : Prop :=
  ∀ (s : State) (c : ExecCtx) (k : Byte) (key : Key), Selects s c phaseMask [k] →
    (s.ps.remaining = 4 ∧ key = { s.ps.maskKey with k0 := k } ∨
     s.ps.remaining = 3 ∧ key = { s.ps.maskKey with k1 := k } ∨
     s.ps.remaining = 2 ∧ key = { s.ps.maskKey with k2 := k } ∨
     s.ps.remaining = 1 ∧ key = { s.ps.maskKey with k3 := k }) →
    ∃ t, exec (.maskb k) s = .next t ∧ SameHost s t ∧
      (s.ps.remaining ≠ 1 →
        t.ps = { s.ps with maskKey := key, remaining := s.ps.remaining - 1 } ∧ AdvancedBy 1 c s t) ∧
      (s.ps.remaining = 1 → s.ps.length ≠ 0 →
        t.ps = { s.ps with maskKey := key, phase := phaseBody, remaining := s.ps.length } ∧
        ReachesEmit .header c s t) ∧
      (s.ps.remaining = 1 → s.ps.length = 0 →
        t.ps = { s.ps with maskKey := key, remaining := 0 } ∧ ReachesEmit .header c s t)

/-- BODYRUN: the run is everything available up to the end of the frame, and nothing has moved when the
BODY event is reached. -/
def Obligations.BodyrunResult : Prop :=
  ∀ (s : State) (c : ExecCtx) (p : List Byte), Selects s c phaseBody p → p ≠ [] →
    1 ≤ s.ps.remaining.toNat → p.length = min s.ps.remaining.toNat c.rest.length →
    ∃ t, exec (.bodyrun p) s = .next t ∧ t.ps = s.ps ∧ SameHost s t ∧
      ReachesEmit (.body p.length) c s t

/-- BADPHASE: the error is set, nothing else changes, and EXECUTE returns the cursor. -/
def Obligations.BadphaseResult : Prop :=
  ∀ (s : State) (c : ExecCtx), s.ctx = some c → c.wait = .running → c.rest ≠ [] →
    5 ≤ s.ps.phase.toNat →
    ∃ t, exec .badphase s = .next t ∧ t.ps = { s.ps with error := .unknownState } ∧ SameHost s t ∧
      EndedWith c.pos s t

/-- A parser step or an event is refused by name where it is not selected: outside its phase, without its
bytes in front, between two steps of no EXECUTE, or away from its emission point. The model's own: the
fetch never brings a step there (log 7). -/
def Obligations.UnselectedIsRefused : Prop :=
  ∀ (s : State),
    (∀ fin rsv opcode, (∀ c, ¬ Selects s c phaseStart [b0Byte fin rsv opcode]) →
      exec (.start fin rsv opcode) s = .refused .notSelected) ∧
    (∀ mask len7, (∀ c, ¬ Selects s c phaseHead [b1Byte mask len7]) ∨ 126 ≤ len7.toNat →
      exec (.headS7 mask len7) s = .refused .notSelected) ∧
    (∀ mask, (∀ c, ¬ Selects s c phaseHead [b1Byte mask 126]) →
      exec (.headX16 mask) s = .refused .notSelected) ∧
    (∀ mask, (∀ c, ¬ Selects s c phaseHead [b1Byte mask 127]) →
      exec (.headX64 mask) s = .refused .notSelected) ∧
    (∀ e, (∀ c, ¬ Selects s c phaseLength [e]) → exec (.lenb e) s = .refused .notSelected) ∧
    (∀ k, (∀ c, ¬ Selects s c phaseMask [k]) → exec (.maskb k) s = .refused .notSelected) ∧
    (∀ p, (∀ c, ¬ Selects s c phaseBody p) → exec (.bodyrun p) s = .refused .notSelected) ∧
    (s.ps.phase.toNat ≤ 4 ∨ (∀ c, s.ctx = some c → c.wait ≠ .running ∨ c.rest = []) →
      exec .badphase s = .refused .notSelected) ∧
    ((∀ c, s.ctx = some c → c.wait ≠ .emitting .header) → exec .header s = .refused .notSelected) ∧
    ((∀ c k, s.ctx = some c → c.wait ≠ .emitting (.body k)) → exec .body s = .refused .notSelected) ∧
    ((∀ c k, s.ctx = some c → c.wait ≠ .emitting (.frameEnd k)) →
      exec .frameEnd s = .refused .notSelected)

/-- Where the `requires` of LENB, MASKB or BODYRUN fails, the state is one no rule reaches, and the step
is refused by that name (log 11); a BODYRUN on other bytes than the run is not selected. -/
def Obligations.RequirementFailureIsRefused : Prop :=
  ∀ (s : State) (c : ExecCtx) (b : Byte) (p : List Byte),
    (Selects s c phaseLength [b] → s.ps.remaining.toNat = 0 ∨ 9 ≤ s.ps.remaining.toNat →
      exec (.lenb b) s = .refused .unreachableState) ∧
    (Selects s c phaseMask [b] → s.ps.remaining.toNat = 0 ∨ 5 ≤ s.ps.remaining.toNat →
      exec (.maskb b) s = .refused .unreachableState) ∧
    (Selects s c phaseBody p → s.ps.remaining = 0 → exec (.bodyrun p) s = .refused .unreachableState) ∧
    (Selects s c phaseBody p → s.ps.remaining ≠ 0 →
      p = [] ∨ p.length ≠ min s.ps.remaining.toNat c.rest.length →
      exec (.bodyrun p) s = .refused .notSelected)

/-! ### The events -/

/-- An enabled HEADER sends the frame's values and suspends the parser. -/
def Obligations.HeaderEventResult : Prop :=
  ∀ (s : State) (c : ExecCtx), s.ctx = some c → c.wait = .emitting .header →
    s.cbEn.getLsbD 0 = true →
    ∃ t r, exec .header s = .next t ∧ t.ps = s.ps ∧ SameHost s t ∧
      t.ctx = some { c with wait := .suspended .header } ∧ t.out = s.out ++ [.evt r []] ∧
      r.kind = .header ∧ r.opcode = s.ps.opcode ∧ r.fin = s.ps.fin ∧ r.hasMask = s.ps.hasMask ∧
      r.length = s.ps.length ∧ r.maskKey = s.ps.maskKey

/-- An enabled BODY sends its offset, its length and its bytes as received, and suspends the parser with
the counters not yet moved. -/
def Obligations.BodyEventResult : Prop :=
  ∀ (s : State) (c : ExecCtx) (k : Nat), s.ctx = some c → c.wait = .emitting (.body k) →
    s.cbEn.getLsbD 1 = true →
    ∃ t r, exec .body s = .next t ∧ t.ps = s.ps ∧ SameHost s t ∧
      t.ctx = some { c with wait := .suspended (.body k) } ∧ t.out = s.out ++ [.evt r (c.rest.take k)] ∧
      r.kind = .body ∧ r.offset = s.ps.bodyDelivered ∧ r.k = k

/-- An enabled END is sent and suspends the parser. -/
def Obligations.EndEventResult : Prop :=
  ∀ (s : State) (c : ExecCtx) (k : Nat), s.ctx = some c → c.wait = .emitting (.frameEnd k) →
    s.cbEn.getLsbD 2 = true →
    ∃ t r, exec .frameEnd s = .next t ∧ t.ps = s.ps ∧ SameHost s t ∧
      t.ctx = some { c with wait := .suspended (.frameEnd k) } ∧ t.out = s.out ++ [.evt r []] ∧
      r.kind = .frameEnd

/-- A disabled event is not sent: the parser proceeds as if it had been answered Continue. `EventState` is asked for
the answer's sake: without it the answer is refused (R37), as in AdmissionTable (log 20). -/
def Obligations.DisabledEventIsContinue : Prop :=
  ∀ (s : State) (c : ExecCtx) (p : EmitPoint), s.ctx = some { c with wait := .emitting p } → EventState s →
    eventEnabled s.cbEn p.kind = false →
    (match p with
      | .header => exec .header s
      | .body _ => exec .body s
      | .frameEnd _ => exec .frameEnd s) =
    exec (.evtRsp false) { s with ctx := some { c with wait := .suspended p } }

/-- Continue after HEADER: on into the frame, or to END when the frame is empty. -/
def Obligations.ContinueAfterHeader : Prop :=
  ∀ (s : State) (c : ExecCtx), SuspendedAt s c .header → EventState s →
    ∃ t, exec (.evtRsp false) s = .next t ∧ t.ps = s.ps ∧ SameHost s t ∧
      (s.ps.length ≠ 0 → AdvancedBy 1 c s t) ∧ (s.ps.length = 0 → ReachesEmit (.frameEnd 1) c s t)

/-- Continue after BODY: both counters move by the run, and the frame goes on or comes to its END. -/
def Obligations.ContinueAfterBody : Prop :=
  ∀ (s : State) (c : ExecCtx) (k : Nat), SuspendedAt s c (.body k) → EventState s →
    k ≤ s.ps.remaining.toNat →
    ∃ t, exec (.evtRsp false) s = .next t ∧ SameHost s t ∧
      t.ps = { s.ps with remaining := BitVec.ofNat 64 (s.ps.remaining.toNat - k),
                         bodyDelivered := s.ps.bodyDelivered + BitVec.ofNat 64 k } ∧
      (k < s.ps.remaining.toNat → AdvancedBy k c s t) ∧
      (k = s.ps.remaining.toNat → ReachesEmit (.frameEnd k) c s t)

/-- Continue after END: EnterStart, which clears `phase`, `length` and `remaining` only. -/
def Obligations.ContinueAfterEnd : Prop :=
  ∀ (s : State) (c : ExecCtx) (k : Nat), SuspendedAt s c (.frameEnd k) → EventState s →
    ∃ t, exec (.evtRsp false) s = .next t ∧ SameHost s t ∧
      t.ps = { s.ps with phase := phaseStart, length := 0, remaining := 0 } ∧ AdvancedBy k c s t

/-- Abort at every site: `aborted` is set, no register is written, and the count points at the byte of
the step, the first byte of the run for BODY, its last byte for END after a run. -/
def Obligations.AbortResult : Prop :=
  ∀ (s : State) (c : ExecCtx) (p : EmitPoint), SuspendedAt s c p → EventState s →
    ∃ t, exec (.evtRsp true) s = .next t ∧ t.ps = s.ps ∧ t.aborted = true ∧ t.cbEn = s.cbEn ∧
      t.tagWritten = s.tagWritten ∧ t.inbox = s.inbox ∧ t.params = s.params ∧
      (p = .header → EndedWith c.pos s t) ∧
      (∀ k, p = .body k → EndedWith c.pos s t) ∧
      (∀ k, p = .frameEnd k → EndedWith (c.pos + (k - 1)) s t)

/-! ### The host's operations -/

/-- INIT: the values of R40, `tag` and `cb_en` kept, `aborted` cleared. The RSP record with free fields that
completes it is the model's reading (log 10). -/
def Obligations.InitResult : Prop :=
  ∀ (s : State), s.ctx = none →
    ∃ t, exec .init s = .next t ∧
      t.ps = { phase := 0, opcode := 0, fin := false, hasMask := false, length := 0, remaining := 0,
               maskKey := ⟨0, 0, 0, 0⟩, maskRotation := 0, bodyDelivered := 0, error := .ok,
               tag := s.ps.tag } ∧
      t.aborted = false ∧ t.cbEn = s.cbEn ∧ t.tagWritten = s.tagWritten ∧ t.ctx = none ∧
      t.inbox = s.inbox ∧ t.params = s.params ∧ Responded s t

/-- SETTINGS: `cb_en` and nothing else. The RSP record with free fields that completes it and the order of the
columns in the hypothesis are the model's readings (logs 10, 11). -/
def Obligations.SettingsResult : Prop :=
  ∀ (s : State) (cb : BitVec 3), IdleInTable s →
    ∃ t, exec (.settings cb) s = .next t ∧ t.cbEn = cb ∧ t.ps = s.ps ∧ t.aborted = s.aborted ∧
      t.tagWritten = s.tagWritten ∧ t.ctx = none ∧ t.inbox = s.inbox ∧ t.params = s.params ∧
      Responded s t

/-- EXECUTE, admitted to an idle block that is WF or in error (R110): the loop begins at the first byte; an empty
buffer returns 0 and changes nothing. An invalid phase counts as an error (R175). -/
def Obligations.ExecuteResult : Prop :=
  ∀ (s : State) (buf : List Byte), IdleInTable s → s.aborted = false →
    ∃ t, exec (.execute buf) s = .next t ∧ t.ps = s.ps ∧ SameHost s t ∧
      (buf = [] → EndedWith 0 s t) ∧
      (buf ≠ [] → t.ctx = some { n := buf.length, pos := 0, rest := buf, wait := .running } ∧
        t.out = s.out)

/-- MASK_FREE: each byte XORed with key byte `(i + rot) mod 4`, the rotation advanced by `n`, no state
read or written. The order of the columns in the hypothesis and what is asked of a suspended state are the
model's readings (logs 11, 20, DEDUCED). -/
def Obligations.MaskFreeResult : Prop :=
  ∀ (s : State) (key : Key) (rot : BitVec 2) (src : List Byte), IdleInTable s ∨ Suspended s ∧ EventState s →
    ∃ t dst rsp, exec (.maskFree key rot src) s = .next t ∧ t.ps = s.ps ∧ t.ctx = s.ctx ∧ SameHost s t ∧
      t.out = s.out ++ [.dout dst, .rsp rsp] ∧ dst.length = src.length ∧
      (∀ i, i < src.length → dst.getD i 0 = src.getD i 0 ^^^ keyAt key ((i + rot.toNat) % 4)) ∧
      rsp.newRot.toNat = (rot.toNat + src.length) % 4

/-- MASK_BOUND: the same with the key and rotation of the state, and the rotation written back. That it runs also on
an idle state whose `mask_rotation` an earlier call has moved in a header (`wfCore`), and what is asked of a
suspended state, are the model's readings (logs 6, 20, DEDUCED). -/
def Obligations.MaskBoundResult : Prop :=
  ∀ (s : State) (src : List Byte), s.aborted = false →
    Suspended s ∧ EventState s ∨ (s.ctx = none ∧ s.ps.error = .ok ∧ wfCore s.ps = true) →
    ∃ t dst rsp, exec (.maskBound src) s = .next t ∧
      t.ps = { s.ps with maskRotation := rsp.newRot } ∧ t.ctx = s.ctx ∧ SameHost s t ∧
      t.out = s.out ++ [.dout dst, .rsp rsp] ∧ dst.length = src.length ∧
      (∀ i, i < src.length →
        dst.getD i 0 = src.getD i 0 ^^^ keyAt s.ps.maskKey ((i + s.ps.maskRotation.toNat) % 4)) ∧
      rsp.newRot.toNat = (s.ps.maskRotation.toNat + src.length) % 4

/-- RESET is taken in every state: the values of R40, `cb_en` 0, an EXECUTE in progress abandoned without
completion, `tag` unspecified within its width. The model's choices: `tagWritten` is the ghost of log 4; what
has been sent stays in `out` (log 2), and what the host has yet to send stays in `inbox` (log 18). -/
def Obligations.ResetResult : Prop :=
  ∀ (s : State), ∃ t tag, exec .reset s = .next t ∧
    t.ps = { phase := 0, opcode := 0, fin := false, hasMask := false, length := 0, remaining := 0,
             maskKey := ⟨0, 0, 0, 0⟩, maskRotation := 0, bodyDelivered := 0, error := .ok,
             tag := tag } ∧
    t.cbEn = 0 ∧ t.aborted = false ∧ t.ctx = none ∧ t.tagWritten = false ∧ t.out = s.out ∧
    t.inbox = s.inbox ∧ t.params = s.params ∧ tag.toNat < 2 ^ s.params.tagW ∧ wf t.ps = true

/-- The register map, number by number, and that a read writes nothing. READ_TAG is stated once `tag` has
been written, which the ghost `tagWritten` says (log 4). -/
def Obligations.RegisterReads : Prop :=
  ∀ (s : State), s.ctx = none ∨ Suspended s →
    exec .readPhase s = .next { s with out := s.out ++ [.rdata (BitVec.ofNat 64 s.ps.phase.toNat)] } ∧
    exec .readFlags s = .next { s with out := s.out ++ [.rdata (BitVec.ofNat 64
      (s.ps.opcode.toNat + 16 * s.ps.fin.toNat + 32 * s.ps.hasMask.toNat))] } ∧
    exec .readLength s = .next { s with out := s.out ++ [.rdata s.ps.length] } ∧
    exec .readRemaining s = .next { s with out := s.out ++ [.rdata s.ps.remaining] } ∧
    exec .readMaskKey s = .next { s with out := s.out ++ [.rdata (BitVec.ofNat 64
      (s.ps.maskKey.k0.toNat * 2 ^ 24 + s.ps.maskKey.k1.toNat * 2 ^ 16 +
       s.ps.maskKey.k2.toNat * 2 ^ 8 + s.ps.maskKey.k3.toNat))] } ∧
    exec .readMaskRot s =
      .next { s with out := s.out ++ [.rdata (BitVec.ofNat 64 s.ps.maskRotation.toNat)] } ∧
    exec .readBodyDelivered s = .next { s with out := s.out ++ [.rdata s.ps.bodyDelivered] } ∧
    exec .readError s = .next { s with out := s.out ++
      [.rdata (if s.ps.error = .unknownState then 1 else 0)] } ∧
    exec .readCbEn s = .next { s with out := s.out ++ [.rdata (BitVec.ofNat 64 s.cbEn.toNat)] } ∧
    (s.tagWritten = true → exec .readTag s = .next { s with out := s.out ++ [.rdata s.ps.tag] })

/-- A read of `tag` before its first write returns some value of `TAG_W` bits, and a read of a reserved
register some word; neither changes anything else. The values are free (logs 3, 4). -/
def Obligations.FreeReads : Prop :=
  ∀ (s : State) (number : BitVec 4), s.ctx = none ∨ Suspended s →
    (s.tagWritten = false → ∃ t v, exec .readTag s = .next t ∧ t.ps = s.ps ∧ t.ctx = s.ctx ∧
      SameHost s t ∧ t.out = s.out ++ [.rdata v] ∧ v.toNat < 2 ^ s.params.tagW) ∧
    (∃ t v, exec (.regReserved number false) s = .next t ∧ t.ps = s.ps ∧ t.ctx = s.ctx ∧
      SameHost s t ∧ t.out = s.out ++ [.rdata v])

/-- TAG writes the low `TAG_W` bits of `wdata` and nothing else, and a read gives them back. -/
def Obligations.TagWriteThenRead : Prop :=
  ∀ (s : State) (wdata : Word64), s.ctx = none ∨ Suspended s →
    ∃ t, exec (.tag wdata) s = .next t ∧
      t.ps = { s.ps with tag := BitVec.ofNat 64 (wdata.toNat % 2 ^ s.params.tagW) } ∧
      t.cbEn = s.cbEn ∧ t.aborted = s.aborted ∧ t.ctx = s.ctx ∧ t.inbox = s.inbox ∧ t.out = s.out ∧
      t.params = s.params ∧
      exec .readTag t = .next { t with out := t.out ++
        [.rdata (BitVec.ofNat 64 (wdata.toNat % 2 ^ s.params.tagW))] }

/-- The reserved encodings are refused: commands 5 to 7, event kind 3, writes to registers 10 to 15, and
on channel REG writes to registers 0 to 7 and 9, which the decoder rejects (logs 13, 14). -/
def Obligations.ReservedIsRefused : Prop :=
  ∀ (s : State),
    (∀ code, exec (.cmdReserved code) s = .refused .reservedCommand) ∧
    exec .evtReserved s = .refused .reservedEvent ∧
    (∀ number, exec (.regReserved number true) s = .refused .reservedRegisterWrite) ∧
    (∀ number wdata rs, s.ctx = none ∨ Suspended s →
      s.inbox = .reg { number := number, write := true, wdata := wdata } :: rs →
      number.toNat ≤ 7 ∨ number.toNat = 9 → step s = .refused .readOnlyRegister)

/-- The table of R175, cell by cell, with R152's `aborted` = 0 in the cell of MASK_BOUND for a suspended block:
what is admitted answers a next state, what is not is refused; and its last sentence, with R37: on an idle state
that is not WF, not aborted and not in error all is refused but INIT, reset and register access. The names of the
refusals, the order of the columns, what is asked of a suspended state, and MASK_BOUND on a state not WF by its
rotation alone (U16) are the model's (logs 6, 11, 20). -/
def Obligations.AdmissionTable : Prop :=
  ∀ (s : State) (cb : BitVec 3) (buf : List Byte) (key : Key) (rot : BitVec 2) (a : Bool) (v : Word64),
    (∃ t, exec .reset s = .next t) ∧
    (s.ctx = none → s.aborted = false → s.ps.error = .ok → wf s.ps = true →
      (∃ t, exec .init s = .next t) ∧ (∃ t, exec (.settings cb) s = .next t) ∧
      (∃ t, exec (.execute buf) s = .next t) ∧ (∃ t, exec (.maskBound buf) s = .next t) ∧
      (∃ t, exec (.maskFree key rot buf) s = .next t) ∧ (∃ t, exec .readError s = .next t) ∧
      (∃ t, exec (.tag v) s = .next t) ∧ exec (.evtRsp a) s = .refused .noEventOutstanding) ∧
    (Suspended s → EventState s →
      exec .init s = .refused .concurrentUse ∧ exec (.settings cb) s = .refused .concurrentUse ∧
      exec (.execute buf) s = .refused .concurrentUse ∧
      (s.aborted = false → ∃ t, exec (.maskBound buf) s = .next t) ∧
      (s.aborted = true → exec (.maskBound buf) s = .refused .afterAbort) ∧
      (∃ t, exec (.maskFree key rot buf) s = .next t) ∧ (∃ t, exec .readError s = .next t) ∧
      (∃ t, exec (.tag v) s = .next t) ∧ (∃ t, exec (.evtRsp a) s = .next t)) ∧
    (Suspended s → ¬ EventState s →
      exec .init s = .refused .concurrentUse ∧ exec (.settings cb) s = .refused .concurrentUse ∧
      exec (.execute buf) s = .refused .concurrentUse ∧
      exec (.maskBound buf) s = .refused .unreachableState ∧
      exec (.maskFree key rot buf) s = .refused .unreachableState ∧ (∃ t, exec .readError s = .next t) ∧
      (∃ t, exec (.tag v) s = .next t) ∧ exec (.evtRsp a) s = .refused .unreachableState) ∧
    (s.ctx = none → s.aborted = true →
      (∃ t, exec .init s = .next t) ∧ (∃ t, exec (.settings cb) s = .next t) ∧
      exec (.execute buf) s = .refused .afterAbort ∧ exec (.maskBound buf) s = .refused .afterAbort ∧
      (∃ t, exec (.maskFree key rot buf) s = .next t) ∧ (∃ t, exec .readError s = .next t) ∧
      (∃ t, exec (.tag v) s = .next t) ∧ exec (.evtRsp a) s = .refused .noEventOutstanding) ∧
    (s.ctx = none → s.aborted = false → s.ps.error = .unknownState ∨ 5 ≤ s.ps.phase.toNat →
      (∃ t, exec .init s = .next t) ∧ (∃ t, exec (.settings cb) s = .next t) ∧
      (∃ t, exec (.execute buf) s = .next t) ∧ exec (.maskBound buf) s = .refused .afterUnknownState ∧
      (∃ t, exec (.maskFree key rot buf) s = .next t) ∧ (∃ t, exec .readError s = .next t) ∧
      (∃ t, exec (.tag v) s = .next t) ∧ exec (.evtRsp a) s = .refused .noEventOutstanding) ∧
    (s.ctx = none → s.aborted = false → s.ps.error = .ok → s.ps.phase.toNat ≤ 4 → wf s.ps = false →
      (∃ t, exec .init s = .next t) ∧ exec (.settings cb) s = .refused .unreachableState ∧
      exec (.execute buf) s = .refused .unreachableState ∧
      (wfCore s.ps = true → ∃ t, exec (.maskBound buf) s = .next t) ∧
      (wfCore s.ps = false → exec (.maskBound buf) s = .refused .unreachableState) ∧
      exec (.maskFree key rot buf) s = .refused .unreachableState ∧
      (∃ t, exec .readError s = .next t) ∧ (∃ t, exec (.tag v) s = .next t) ∧
      exec (.evtRsp a) s = .refused .noEventOutstanding)

/-- After an abort EXECUTE is refused until INIT or reset. An Abort leaves the block idle and aborted, no
register written; an idle aborted block refuses EXECUTE and MASK_BOUND, and every operation but INIT and reset
leaves it idle and aborted; after INIT, which keeps `tag` and `cb_en`, and after reset EXECUTE is admitted. -/
def Obligations.AbortThenInitRecovers : Prop :=
  (∀ s t : State, Suspended s → exec (.evtRsp true) s = .next t →
    t.ctx = none ∧ t.aborted = true ∧ t.ps = s.ps ∧ t.cbEn = s.cbEn) ∧
  ∀ (s : State) (buf : List Byte), s.ctx = none → s.aborted = true →
    exec (.execute buf) s = .refused .afterAbort ∧ exec (.maskBound buf) s = .refused .afterAbort ∧
    (∀ i t, i ≠ .init → i ≠ .reset → exec i s = .next t → t.ctx = none ∧ t.aborted = true) ∧
    (∃ u v, exec .init s = .next u ∧ wf u.ps = true ∧ u.ps.tag = s.ps.tag ∧ u.cbEn = s.cbEn ∧
      exec (.execute buf) u = .next v) ∧
    ∃ u v, exec .reset s = .next u ∧ wf u.ps = true ∧ exec (.execute buf) u = .next v

/-- UnknownState: with an invalid phase a running EXECUTE ends at its cursor with the error set and nothing
else changed, no event sent; a new EXECUTE ends the same way at 0; and no operation but INIT and reset
leaves the condition. -/
def Obligations.UnknownStateIsSticky : Prop :=
  (∀ (s : State) (c : ExecCtx), s.ctx = some c → c.wait = .running → c.rest ≠ [] → 5 ≤ s.ps.phase.toNat →
    ∃ t, step s = .next t ∧ t.ps = { s.ps with error := .unknownState } ∧ SameHost s t ∧
      EndedWith c.pos s t) ∧
  (∀ (s : State) (b : Byte) (p : List Byte), s.ctx = none → s.aborted = false → 5 ≤ s.ps.phase.toNat →
    ∃ s' t, exec (.execute (b :: p)) s = .next s' ∧ step s' = .next t ∧ EndedWith 0 s t ∧
      t.ps = { s.ps with error := .unknownState } ∧ SameHost s t) ∧
  (∀ (s t : State) (i : Instr), s.ctx = none → 5 ≤ s.ps.phase.toNat → i ≠ .init → i ≠ .reset →
    exec i s = .next t → t.ps.phase = s.ps.phase ∧ t.ps.error = s.ps.error)

/-! ### Masking -/

/-- Split invariance: masking in any number of parts, empty ones included, is masking in one. -/
def Obligations.MaskSplitInvariance : Prop :=
  ∀ (key : Key) (rot : BitVec 2) (parts : List (List Byte)),
    maskParts key rot parts =
      (maskBytes key rot parts.flatten, nextRotation rot parts.flatten.length)

/-- Masking twice from the same rotation gives the bytes back, in one call or however each pass is cut. -/
def Obligations.MaskInvolution : Prop :=
  ∀ (key : Key) (rot : BitVec 2), (∀ p : List Byte, maskBytes key rot (maskBytes key rot p) = p) ∧
    ∀ parts parts' : List (List Byte), parts'.flatten = (maskParts key rot parts).1 →
      (maskParts key rot parts').1 = parts.flatten

/-- Two MASK_BOUND calls in a row are one call on the concatenation: same state, same bytes. -/
def Obligations.MaskBoundSplit : Prop :=
  ∀ (s s1 s2 u : State) (p1 p2 : List Byte), exec (.maskBound p1) s = .next s1 →
    exec (.maskBound p2) s1 = .next s2 → exec (.maskBound (p1 ++ p2)) s = .next u →
    s2.ps = u.ps ∧ s2.ctx = u.ctx ∧ SameHost u s2 ∧
    ∃ d1 d2 r1 r2 r, s2.out = s.out ++ [.dout d1, .rsp r1, .dout d2, .rsp r2] ∧
      u.out = s.out ++ [.dout (d1 ++ d2), .rsp r] ∧ r2.newRot = r.newRot

/-- A host that presents each run to MASK_BOUND during its BODY event keeps `mask_rotation` equal to the
frame offset modulo 4. -/
def Obligations.RotationFollowsOffset : Prop :=
  ∀ (s s1 t : State) (c : ExecCtx) (k : Nat), SuspendedAt s c (.body k) → k ≤ c.rest.length →
    s.ps.maskRotation.toNat = s.ps.bodyDelivered.toNat % 4 →
    exec (.maskBound (c.rest.take k)) s = .next s1 → exec (.evtRsp false) s1 = .next t →
    t.ps.maskRotation.toNat = t.ps.bodyDelivered.toNat % 4

/-! ### The length -/

/-- EXT16 and EXT64 are big-endian, from a length of 0, and every bit is kept. -/
def Obligations.ExtendedLengthBigEndian : Prop :=
  ∀ (e0 e1 e2 e3 e4 e5 e6 e7 : Byte),
    (accumulateLength (accumulateLength 0 e0) e1).toNat = e0.toNat * 256 + e1.toNat ∧
    ([e0, e1, e2, e3, e4, e5, e6, e7].foldl accumulateLength 0).toNat =
      e0.toNat * 2 ^ 56 + e1.toNat * 2 ^ 48 + e2.toNat * 2 ^ 40 + e3.toNat * 2 ^ 32 +
      e4.toNat * 2 ^ 24 + e5.toNat * 2 ^ 16 + e6.toNat * 2 ^ 8 + e7.toNat

/-- In a well-formed state LENB shifts no set bit out of `length`. -/
def Obligations.LengthIsExact : Prop :=
  ∀ (s t : State) (e : Byte), wfCore s.ps = true → exec (.lenb e) s = .next t →
    t.ps.length.toNat = s.ps.length.toNat * 256 + e.toNat

/-! ### Invariants -/

/-- The state after reset meets the invariant, and is well formed in full. -/
def Obligations.ResetMeetsInvariant : Prop :=
  State.reset.inv = true ∧ wf State.reset.ps = true

/-- Every step keeps the invariant, from every state that meets it. The invariant takes `WF` in full between the
steps of an EXECUTE (R37) and without its clauses on `mask_rotation` when idle (log 6), and adds the cursor and the
state at each event. -/
def Obligations.StepKeepsInvariant : Prop :=
  ∀ (s t : State), s.inv = true → step s = .next t → t.inv = true

/-- Every step keeps the cursor of an EXECUTE in range, in every state whatever. -/
def Obligations.StepKeepsCursor : Prop :=
  ∀ (s t : State), (∀ c, s.ctx = some c → cursorOk c = true) → step s = .next t →
    ∀ c, t.ctx = some c → cursorOk c = true

/-- Every operation but MASK_BOUND keeps the clauses of `WF` on `mask_rotation`. -/
def Obligations.RotationClauseKept : Prop :=
  ∀ (s t : State) (i : Instr), wfRotation s.ps = true → (∀ src, i ≠ .maskBound src) →
    exec i s = .next t → wfRotation t.ps = true

/-- The corner in which rule R37 does not hold of rules R36 and R152 (log 6): from a well-formed state in
Head, MASK_BOUND of one byte leaves a state outside `WF`. There SETTINGS, EXECUTE and MASK_FREE are refused (R37,
R110), a further MASK_BOUND runs (U16), and INIT makes the state WF again. -/
def Obligations.MaskBoundInHeadLeavesWF : Prop :=
  ∃ s t u v : State, s.inv = true ∧ wf s.ps = true ∧ s.ps.phase = phaseHead ∧ s.ctx = none ∧
    s.aborted = false ∧ exec (.maskBound [0]) s = .next t ∧ wf t.ps = false ∧ t.inv = true ∧
    exec (.settings 7) t = .refused .unreachableState ∧
    exec (.execute [0]) t = .refused .unreachableState ∧
    exec (.maskFree ⟨1, 2, 3, 4⟩ 0 [0]) t = .refused .unreachableState ∧
    exec (.maskBound [0, 0, 0]) t = .next u ∧ exec .init t = .next v ∧ wf v.ps = true

/-- No operation writes an invalid phase. -/
def Obligations.NoInvalidPhaseWritten : Prop :=
  ∀ (s t : State) (i : Instr), s.ps.phase.toNat ≤ 4 → exec i s = .next t → t.ps.phase.toNat ≤ 4

/-- The transition table R126 with its targets: from one of the five phases, `phase` changes only along its rows,
the return to Start being made by END, disabled or answered Continue, or to Start by INIT or reset. From an
invalid phase, which no operation writes (NoInvalidPhaseWritten), the same three alone change it, to Start. The
rows of R126 count END within the step that emits it; that it is a step of its own is the model's choice (log 7). -/
def Obligations.PhaseTransitions : Prop :=
  ∀ (s t : State) (i : Instr), exec i s = .next t → t.ps.phase ≠ s.ps.phase →
    (s.ps.phase.toNat ≤ 4 →
      (i = .init ∨ i = .reset) ∧ t.ps.phase = phaseStart ∨
      (∃ f r o, i = .start f r o) ∧ s.ps.phase = phaseStart ∧ t.ps.phase = phaseHead ∨
      (∃ m l, i = .headS7 m l ∧ t.ps.phase = if m then phaseMask else phaseBody) ∧
        s.ps.phase = phaseHead ∨
      (∃ m, i = .headX16 m ∨ i = .headX64 m) ∧ s.ps.phase = phaseHead ∧ t.ps.phase = phaseLength ∨
      (∃ e, i = .lenb e) ∧ s.ps.phase = phaseLength ∧ s.ps.remaining = 1 ∧
        (t.ps.phase = if s.ps.hasMask then phaseMask else phaseBody) ∨
      (∃ k, i = .maskb k) ∧ s.ps.phase = phaseMask ∧ s.ps.remaining = 1 ∧ t.ps.phase = phaseBody ∨
      (i = .frameEnd ∨ i = .evtRsp false ∧ ∃ c k, SuspendedAt s c (.frameEnd k)) ∧
        1 ≤ s.ps.phase.toNat ∧ s.ps.phase.toNat ≤ 4 ∧ t.ps.phase = phaseStart) ∧
    (5 ≤ s.ps.phase.toNat → t.ps.phase = phaseStart ∧
      (i = .init ∨ i = .reset ∨ i = .frameEnd ∨ i = .evtRsp false ∧ ∃ c k, SuspendedAt s c (.frameEnd k)))

/-- Which operations write each register (R21 to R29, R31 to R33, R35): everything else leaves it alone. Where
R21 to R25 name a parser's step that emits events as the writer (BODYRUN for `remaining` and `body_delivered`, the
steps that return to Start for `phase`, `length` and `remaining`), the write after the event is made by BODY or END
when disabled and by the answer Continue when enabled: the model's choice (log 7, DESIGN CHOICE). -/
def Obligations.WritersOfEachRegister : Prop :=
  ∀ (s t : State) (i : Instr), exec i s = .next t → i ≠ .init → i ≠ .reset →
    (t.ps.phase ≠ s.ps.phase →
      (∃ f r o, i = .start f r o) ∨ (∃ m l, i = .headS7 m l) ∨ (∃ m, i = .headX16 m ∨ i = .headX64 m) ∨
      (∃ b, i = .lenb b ∨ i = .maskb b) ∨ i = .frameEnd ∨ i = .evtRsp false) ∧
    (t.ps.opcode ≠ s.ps.opcode ∨ t.ps.fin ≠ s.ps.fin → ∃ f r o, i = .start f r o) ∧
    (t.ps.hasMask ≠ s.ps.hasMask →
      (∃ m l, i = .headS7 m l) ∨ ∃ m, i = .headX16 m ∨ i = .headX64 m) ∧
    (t.ps.length ≠ s.ps.length →
      (∃ m l, i = .headS7 m l) ∨ (∃ m, i = .headX16 m ∨ i = .headX64 m) ∨ (∃ e, i = .lenb e) ∨
      i = .frameEnd ∨ i = .evtRsp false) ∧
    (t.ps.remaining ≠ s.ps.remaining →
      (∃ m l, i = .headS7 m l) ∨ (∃ m, i = .headX16 m ∨ i = .headX64 m) ∨
      (∃ b, i = .lenb b ∨ i = .maskb b) ∨ i = .body ∨ i = .frameEnd ∨ i = .evtRsp false) ∧
    (t.ps.maskKey ≠ s.ps.maskKey → ∃ k, i = .maskb k) ∧
    (t.ps.maskRotation ≠ s.ps.maskRotation → (∃ f r o, i = .start f r o) ∨ ∃ p, i = .maskBound p) ∧
    (t.ps.bodyDelivered ≠ s.ps.bodyDelivered →
      (∃ f r o, i = .start f r o) ∨ i = .body ∨ i = .evtRsp false) ∧
    (t.ps.error ≠ s.ps.error → i = .badphase) ∧
    (t.ps.tag ≠ s.ps.tag → ∃ v, i = .tag v) ∧
    (t.cbEn ≠ s.cbEn → ∃ cb, i = .settings cb) ∧
    (t.aborted ≠ s.aborted → i = .evtRsp true) ∧
    t.params = s.params ∧ t.inbox = s.inbox

/-- What has been sent stays sent: every operation, reset too, only adds to the output. The store `out` of what
has been sent is the model's own, and that it is never shortened its choice (logs 2, 18, DESIGN CHOICE). -/
def Obligations.OutputOnlyGrows : Prop :=
  ∀ (s t : State) (i : Instr), exec i s = .next t → s.out <+: t.out

/-- With every event disabled no event is ever sent. -/
def Obligations.NoEventWithoutEnable : Prop :=
  ∀ (s t : State) (i : Instr) (r : EvtRecord) (data : List Byte), s.cbEn = 0 → exec i s = .next t →
    .evt r data ∈ t.out → .evt r data ∈ s.out

/-- When an EXECUTE in progress ends other than by reset, it returns one count, at most `n`, and below
`n` exactly when an event was answered Abort or the phase was invalid. -/
def Obligations.ShortCountExactlyOnFailure : Prop :=
  ∀ (s t : State) (c : ExecCtx) (i : Instr), s.ctx = some c → cursorOk c = true → i ≠ .reset →
    exec i s = .next t → t.ctx = none →
    ∃ m, EndedWith m s t ∧ m ≤ c.n ∧ (m < c.n ↔ i = .evtRsp true ∨ i = .badphase)

/-! ### Runs -/

/-- An EXECUTE whose every event is answered Continue completes within five steps a byte and returns `n`.
The five are the model's: a parser step, two events and their two answers (log 7). -/
def Obligations.ExecuteCompletes : Prop :=
  ∀ (s : State) (buf : List Byte), s.inv = true → wf s.ps = true → s.ctx = none → s.aborted = false →
    s.inbox = [] → buf.length < 2 ^ s.params.cntW →
    ∃ k t o, k ≤ 5 * buf.length ∧ RunsTo buf s k t ∧ t.out = s.out ++ o ∧ counts o = [buf.length] ∧
      t.inv = true ∧ wf t.ps = true ∧ t.aborted = false ∧ t.inbox = []

/-- Chunk-boundary invariance: two EXECUTEs on two pieces end in the same ParserState as one on the whole,
return the lengths of their pieces, and give the host the same events, byte for byte with the same
offsets. From every idle WF state (R133); EXECUTE is admitted to no other that is not in error (R110). -/
def Obligations.ChunkBoundaryInvariance : Prop :=
  ∀ (s : State) (a b : List Byte), s.inv = true → wf s.ps = true → s.ctx = none → s.aborted = false →
    s.inbox = [] → (a ++ b).length < 2 ^ s.params.cntW →
    ∃ k1 t1 o1 k2 t2 o2 k t o, RunsTo a s k1 t1 ∧ t1.out = s.out ++ o1 ∧
      RunsTo b t1 k2 t2 ∧ t2.out = t1.out ++ o2 ∧ RunsTo (a ++ b) s k t ∧ t.out = s.out ++ o ∧
      counts o1 = [a.length] ∧ counts o2 = [b.length] ∧ counts o = [a.length + b.length] ∧
      t2.ps = t.ps ∧ SameHost t t2 ∧ items o1 ++ items o2 = items o

/-- With all events enabled and answered Continue, the events of an EXECUTE that begins on a frame
boundary come frame by frame as HEADER, BODY runs whose offsets follow on from 0, and an END exactly when
they sum to the declared length. -/
def Obligations.EventsComeInFrames : Prop :=
  ∀ (s t : State) (buf : List Byte) (k : Nat) (o : List OutRecord), s.inv = true → s.inbox = [] →
    s.aborted = false → s.ps.phase = phaseStart → s.cbEn = 7 → buf.length < 2 ^ s.params.cntW →
    RunsTo buf s k t → t.out = s.out ++ o → framesOk none o = true

/-! ### What `aborted` and well-formedness decide -/

/-- While `aborted` is 1 every EXECUTE and every MASK_BOUND is refused (R35), idle, suspended or running; an Abort
alone sets it, and INIT and reset alone clear it. That the bit is set on an event answered Abort is
AbortResult. The names of the refusals are the model's (log 11). -/
def Obligations.AbortedRefusesExecuteAndMaskBound : Prop :=
  (∀ (s : State) (buf : List Byte), s.aborted = true →
    (exec (.execute buf) s = .refused .afterAbort ∨ exec (.execute buf) s = .refused .concurrentUse) ∧
    exec (.maskBound buf) s = .refused .afterAbort) ∧
  ∀ (s t : State) (i : Instr), exec i s = .next t →
    (s.aborted = false → t.aborted = true → i = .evtRsp true) ∧
    (s.aborted = true → t.aborted = false → i = .init ∨ i = .reset)

/-- `wfCore` is what one MASK_BOUND makes of the states well formed in full (R36): it adds nothing but what R152
does to `mask_rotation`. So the idle states on which the model runs MASK_BOUND, and that the invariant admits,
are those which R152 reaches from WF states (log 6, DEDUCED). -/
def Obligations.WfCoreIsWfUpToMaskBound : Prop :=
  ∀ t : State, t.ctx = none → t.aborted = false →
    (wfCore t.ps = true ↔ ∃ (s u : State) (src : List Byte), wf s.ps = true ∧ s.ctx = none ∧
      s.aborted = false ∧ exec (.maskBound src) s = .next u ∧ u.ps = t.ps)
end

