-- ==== Sys2Proof/Laws/Admission.lean ====
section
/-! SUPPORT. The condition of a state, and in which conditions the table of rule R175 admits an operation. -/

namespace Sys2Proof.Machine

theorem condition_suspended {s : State} (h : Suspended s) (he : EventState s) : condition s = .suspended := by
  obtain ⟨c, p, h, hw⟩ := h
  simp [condition, h, hw, he]

theorem condition_suspendedUnreachable {s : State} (h : Suspended s) (he : ¬ EventState s) :
    condition s = .suspendedUnreachable := by
  obtain ⟨c, p, h, hw⟩ := h
  simp only [condition, h, hw, if_neg he]

/-- Suspended, the condition is one of two. -/
theorem condition_suspended_cases {s : State} (h : Suspended s) :
    condition s = .suspended ∧ EventState s ∨ condition s = .suspendedUnreachable ∧ ¬ EventState s := by
  by_cases he : EventState s
  · exact .inl ⟨condition_suspended h he, he⟩
  · exact .inr ⟨condition_suspendedUnreachable h he, he⟩

theorem condition_idle {s : State} (h : s.ctx = none) : condition s =
    if s.aborted then .idleAborted
    else if s.ps.error = .unknownState ∨ invalidPhase s.ps = true then .idleError
    else if wf s.ps then .idle
    else if wfCore s.ps then .idleOutOfStep
    else .idleUnreachable := by simp [condition, h]

/-- WF holds only with no error and one of the five phases. -/
theorem wfCore_valid {p : ParserState} (h : wfCore p = true) : p.error = .ok ∧ invalidPhase p = false := by
  simp only [wfCore, Bool.and_eq_true, decide_eq_true_eq] at h
  refine ⟨h.1, ?_⟩
  by_contra hp
  have : 5 ≤ p.phase.toNat := by simpa [invalidPhase] using hp
  have := h.2
  split at this <;> first | omega | cases this

theorem wfCore_of_wf {p : ParserState} (h : wf p = true) : wfCore p = true := by
  simp only [wf, Bool.and_eq_true] at h
  exact h.1

/-- Outside reset, what the table admits is admitted to an idle or suspended block only (R59). -/
theorem admits_quiet {op : HostOp} {s : State} (h : admits op (condition s) = true) (hop : op ≠ .reset) :
    s.ctx = none ∨ Suspended s := by
  unfold condition at h
  split at h
  · rename_i c hc
    split at h
    · rename_i p hw
      exact .inr ⟨c, p, hc, hw⟩
    · cases op <;> simp_all [admits]
    · cases op <;> simp_all [admits]
  · exact .inl ‹_›

/-- INIT, SETTINGS and EXECUTE are admitted to an idle block only. -/
theorem admits_idle {op : HostOp} {s : State} (h : admits op (condition s) = true)
    (hop : op = .init ∨ op = .settings ∨ op = .execute) : s.ctx = none := by
  rcases admits_quiet h (by rcases hop with rfl | rfl | rfl <;> simp) with h' | h'
  · exact h'
  · rcases condition_suspended_cases h' with ⟨hc, _⟩ | ⟨hc, _⟩ <;> rw [hc] at h <;>
      rcases hop with rfl | rfl | rfl <;> simp [admits] at h

/-- The event answer is admitted only to a suspended block, in a state in which its event can be outstanding. -/
theorem admits_answer {s : State} : admits .answer (condition s) = true ↔ Suspended s ∧ EventState s := by
  constructor
  · intro h
    rcases admits_quiet h (by simp) with h' | h'
    · rw [condition_idle h'] at h
      split at h <;> [skip; split at h <;> [skip; split at h <;> [skip; split at h]]] <;> simp [admits] at h
    · rcases condition_suspended_cases h' with ⟨_, he⟩ | ⟨hc, _⟩
      · exact ⟨h', he⟩
      · simp [hc, admits] at h
  · rintro ⟨h, he⟩
    rw [condition_suspended h he]
    rfl

/-- Register accesses are admitted to every idle or suspended block. -/
theorem admits_register {s : State} (h : s.ctx = none ∨ Suspended s) :
    admits .read (condition s) = true ∧ admits .tagWrite (condition s) = true := by
  rcases h with h | h
  · rw [condition_idle h]
    split <;> [skip; split <;> [skip; split <;> [skip; split]]] <;> exact ⟨rfl, rfl⟩
  · rcases condition_suspended_cases h with ⟨hc, _⟩ | ⟨hc, _⟩ <;> rw [hc] <;> exact ⟨rfl, rfl⟩

/-- Idle in a column of the table: SETTINGS and MASK_FREE are admitted, EXECUTE unless aborted. -/
theorem admits_inTable {s : State} (h : IdleInTable s) :
    admits .settings (condition s) = true ∧ admits .maskFree (condition s) = true ∧
    (s.aborted = false → admits .execute (condition s) = true) := by
  obtain ⟨h, h'⟩ := h
  rw [condition_idle h]
  split
  · simp_all [admits]
  · split
    · simp [admits]
    · split
      · simp [admits]
      · simp_all [invalidPhase]

end Sys2Proof.Machine
end

