-- ==== Sys2Proof/Laws/State.lean ====
section
/-! SUPPORT. One lemma per field for each update of State: no later proof unfolds a record update. -/

namespace Sys2Proof.Machine

variable (s : State)

@[simp] theorem send_ps (r : OutRecord) : (s.send r).ps = s.ps := rfl
@[simp] theorem send_cbEn (r : OutRecord) : (s.send r).cbEn = s.cbEn := rfl
@[simp] theorem send_aborted (r : OutRecord) : (s.send r).aborted = s.aborted := rfl
@[simp] theorem send_tagWritten (r : OutRecord) : (s.send r).tagWritten = s.tagWritten := rfl
@[simp] theorem send_ctx (r : OutRecord) : (s.send r).ctx = s.ctx := rfl
@[simp] theorem send_inbox (r : OutRecord) : (s.send r).inbox = s.inbox := rfl
@[simp] theorem send_out (r : OutRecord) : (s.send r).out = s.out ++ [r] := rfl
@[simp] theorem send_draw (r : OutRecord) : (s.send r).draw = s.draw := rfl
@[simp] theorem send_params (r : OutRecord) : (s.send r).params = s.params := rfl

@[simp] theorem tick_ps : s.tick.ps = s.ps := rfl
@[simp] theorem tick_cbEn : s.tick.cbEn = s.cbEn := rfl
@[simp] theorem tick_aborted : s.tick.aborted = s.aborted := rfl
@[simp] theorem tick_tagWritten : s.tick.tagWritten = s.tagWritten := rfl
@[simp] theorem tick_ctx : s.tick.ctx = s.ctx := rfl
@[simp] theorem tick_inbox : s.tick.inbox = s.inbox := rfl
@[simp] theorem tick_out : s.tick.out = s.out := rfl
@[simp] theorem tick_draw : s.tick.draw = s.draw + 1 := rfl
@[simp] theorem tick_params : s.tick.params = s.params := rfl

@[simp] theorem withPs_ps (p : ParserState) : (s.withPs p).ps = p := rfl
@[simp] theorem withPs_cbEn (p : ParserState) : (s.withPs p).cbEn = s.cbEn := rfl
@[simp] theorem withPs_aborted (p : ParserState) : (s.withPs p).aborted = s.aborted := rfl
@[simp] theorem withPs_tagWritten (p : ParserState) : (s.withPs p).tagWritten = s.tagWritten := rfl
@[simp] theorem withPs_ctx (p : ParserState) : (s.withPs p).ctx = s.ctx := rfl
@[simp] theorem withPs_inbox (p : ParserState) : (s.withPs p).inbox = s.inbox := rfl
@[simp] theorem withPs_out (p : ParserState) : (s.withPs p).out = s.out := rfl
@[simp] theorem withPs_draw (p : ParserState) : (s.withPs p).draw = s.draw := rfl
@[simp] theorem withPs_params (p : ParserState) : (s.withPs p).params = s.params := rfl

@[simp] theorem withCtx_ps (c : Option ExecCtx) : (s.withCtx c).ps = s.ps := rfl
@[simp] theorem withCtx_cbEn (c : Option ExecCtx) : (s.withCtx c).cbEn = s.cbEn := rfl
@[simp] theorem withCtx_aborted (c : Option ExecCtx) : (s.withCtx c).aborted = s.aborted := rfl
@[simp] theorem withCtx_tagWritten (c : Option ExecCtx) : (s.withCtx c).tagWritten = s.tagWritten := rfl
@[simp] theorem withCtx_ctx (c : Option ExecCtx) : (s.withCtx c).ctx = c := rfl
@[simp] theorem withCtx_inbox (c : Option ExecCtx) : (s.withCtx c).inbox = s.inbox := rfl
@[simp] theorem withCtx_out (c : Option ExecCtx) : (s.withCtx c).out = s.out := rfl
@[simp] theorem withCtx_draw (c : Option ExecCtx) : (s.withCtx c).draw = s.draw := rfl
@[simp] theorem withCtx_params (c : Option ExecCtx) : (s.withCtx c).params = s.params := rfl

end Sys2Proof.Machine
end

