-- ==== Sys2Proof/Laws/Ops.lean ====
section
/-! SUPPORT. One lemma per shared operation: what it writes and sends, and, for the guards, when it
answers a next state. Later proofs cite these instead of unfolding the operations. -/

namespace Sys2Proof.Machine

/-! ### Completion, cursor, emission points -/

@[simp] theorem respond_ps (m r s) : (respond m r s).ps = s.ps := rfl
@[simp] theorem respond_ctx (m r s) : (respond m r s).ctx = s.ctx := rfl
@[simp] theorem respond_cbEn (m r s) : (respond m r s).cbEn = s.cbEn := rfl
@[simp] theorem respond_aborted (m r s) : (respond m r s).aborted = s.aborted := rfl
@[simp] theorem respond_tagWritten (m r s) : (respond m r s).tagWritten = s.tagWritten := rfl
@[simp] theorem respond_inbox (m r s) : (respond m r s).inbox = s.inbox := rfl
@[simp] theorem respond_params (m r s) : (respond m r s).params = s.params := rfl

/-- A completion sends one RSP record that carries the values the command gives. -/
theorem respond_out (m : Option Nat) (r : Option (BitVec 2)) (s : State) :
    ∃ rec, (respond m r s).out = s.out ++ [.rsp rec] ∧ (∀ n, m = some n → rec.consumed = n) ∧
      (∀ x, r = some x → rec.newRot = x) :=
  ⟨_, rfl, fun _ h => by simp [h], fun _ h => by simp [h]⟩

@[simp] theorem finish_ps (m s) : (finish m s).ps = s.ps := rfl
@[simp] theorem finish_ctx (m s) : (finish m s).ctx = none := rfl
@[simp] theorem finish_cbEn (m s) : (finish m s).cbEn = s.cbEn := rfl
@[simp] theorem finish_aborted (m s) : (finish m s).aborted = s.aborted := rfl
@[simp] theorem finish_tagWritten (m s) : (finish m s).tagWritten = s.tagWritten := rfl
@[simp] theorem finish_inbox (m s) : (finish m s).inbox = s.inbox := rfl
@[simp] theorem finish_params (m s) : (finish m s).params = s.params := rfl

/-- The end of an EXECUTE: the context is gone and RSP carries the count. -/
theorem finish_ended (m : Nat) (s : State) : EndedWith m s (finish m s) := ⟨rfl, _, rfl⟩

@[simp] theorem advance_ps (k c s) : (advance k c s).ps = s.ps := by unfold advance; split <;> rfl
@[simp] theorem advance_cbEn (k c s) : (advance k c s).cbEn = s.cbEn := by unfold advance; split <;> rfl
@[simp] theorem advance_aborted (k c s) : (advance k c s).aborted = s.aborted := by
  unfold advance; split <;> rfl
@[simp] theorem advance_tagWritten (k c s) : (advance k c s).tagWritten = s.tagWritten := by
  unfold advance; split <;> rfl
@[simp] theorem advance_inbox (k c s) : (advance k c s).inbox = s.inbox := by unfold advance; split <;> rfl
@[simp] theorem advance_params (k c s) : (advance k c s).params = s.params := by
  unfold advance; split <;> rfl

/-- `Advance(k)` moves the cursor by `k`, and ends the EXECUTE with `n` when the buffer is used up. -/
theorem advance_advancedBy (k : Nat) (c : ExecCtx) (s : State) : AdvancedBy k c s (advance k c s) := by
  unfold AdvancedBy advance
  split <;> rename_i h
  · rw [if_neg (by simpa using h)]
    exact ⟨rfl, rfl⟩
  · rw [if_pos (by simpa using h)]
    exact finish_ended _ _

@[simp] theorem reachEmit_ps (p c s) : (reachEmit p c s).ps = s.ps := rfl
@[simp] theorem reachEmit_ctx (p c s) :
    (reachEmit p c s).ctx = some { c with wait := .emitting p } := rfl
@[simp] theorem reachEmit_cbEn (p c s) : (reachEmit p c s).cbEn = s.cbEn := rfl
@[simp] theorem reachEmit_aborted (p c s) : (reachEmit p c s).aborted = s.aborted := rfl
@[simp] theorem reachEmit_tagWritten (p c s) : (reachEmit p c s).tagWritten = s.tagWritten := rfl
@[simp] theorem reachEmit_inbox (p c s) : (reachEmit p c s).inbox = s.inbox := rfl
@[simp] theorem reachEmit_out (p c s) : (reachEmit p c s).out = s.out := rfl
@[simp] theorem reachEmit_params (p c s) : (reachEmit p c s).params = s.params := rfl

/-- PostMask of a zero-length frame leaves the phase and comes to HEADER. -/
theorem postMask_zero {s : State} (c : ExecCtx) (h : s.ps.length = 0) :
    postMask c s = reachEmit .header c s := if_pos h

/-- PostMask of a frame with payload enters Body, then comes to HEADER. -/
theorem postMask_body {s : State} (c : ExecCtx) (h : s.ps.length ≠ 0) :
    postMask c s = reachEmit .header c
      (s.withPs { s.ps with phase := phaseBody, remaining := s.ps.length }) := if_neg h

/-- PostLength of a masked frame enters Mask. -/
theorem postLength_masked {s : State} (c : ExecCtx) (h : s.ps.hasMask = true) :
    postLength c s = advance 1 c (s.withPs { s.ps with phase := phaseMask, remaining := 4 }) := by
  simp [postLength, h]

/-- PostLength of an unmasked frame is PostMask. -/
theorem postLength_unmasked {s : State} (c : ExecCtx) (h : s.ps.hasMask = false) :
    postLength c s = postMask c s := by simp [postLength, h]

/-- What PostMask does to ParserState. -/
theorem postMask_ps (c : ExecCtx) (s : State) :
    (postMask c s).ps =
      if s.ps.length = 0 then s.ps else { s.ps with phase := phaseBody, remaining := s.ps.length } := by
  unfold postMask; split <;> rfl

/-- What PostLength does to ParserState. -/
theorem postLength_ps (c : ExecCtx) (s : State) :
    (postLength c s).ps =
      if s.ps.hasMask then { s.ps with phase := phaseMask, remaining := 4 }
      else if s.ps.length = 0 then s.ps
      else { s.ps with phase := phaseBody, remaining := s.ps.length } := by
  unfold postLength; split
  · simp
  · exact postMask_ps c s

/-- PostMask leaves everything but ParserState and the context alone. -/
theorem postMask_sameHost (c : ExecCtx) (s : State) : SameHost s (postMask c s) := by
  unfold postMask; split <;> exact ⟨rfl, rfl, rfl, rfl, rfl⟩

/-- PostLength leaves everything but ParserState, the context and the output alone. -/
theorem postLength_sameHost (c : ExecCtx) (s : State) : SameHost s (postLength c s) := by
  unfold postLength; split
  · simp [SameHost]
  · exact postMask_sameHost c s

/-! ### The event procedure -/

/-- An enabled event is sent and the parser is suspended at it. -/
theorem emit_enabled {p : EmitPoint} {s : State} (c : ExecCtx) (h : eventEnabled s.cbEn p.kind = true) :
    emit p c s =
      ((s.send (.evt (evtRecord p s) (evtData p c))).tick).withCtx (some { c with wait := .suspended p }) := by
  simp [emit, h]

/-- A disabled event is Continue. -/
theorem emit_disabled {p : EmitPoint} {s : State} (c : ExecCtx) (h : eventEnabled s.cbEn p.kind = false) :
    emit p c s = continueFrom p c s := by simp [emit, h]

theorem evtRecord_kind (p : EmitPoint) (s : State) : (evtRecord p s).kind = p.kind := by cases p <;> rfl

/-- What Continue does to ParserState at each emission point. -/
theorem continueFrom_ps (p : EmitPoint) (c : ExecCtx) (s : State) :
    (continueFrom p c s).ps = match p with
      | .header => s.ps
      | .body k => { s.ps with remaining := s.ps.remaining - BitVec.ofNat 64 k,
                               bodyDelivered := s.ps.bodyDelivered + BitVec.ofNat 64 k }
      | .frameEnd _ => enterStart s.ps := by
  cases p <;> simp only [continueFrom] <;> (try split) <;> simp

/-- What an event does to ParserState: nothing when it is sent, what Continue does when it is not. -/
theorem emit_ps (p : EmitPoint) (c : ExecCtx) (s : State) :
    (emit p c s).ps = if eventEnabled s.cbEn p.kind then s.ps else (continueFrom p c s).ps := by
  unfold emit; split <;> rfl

@[simp] theorem continueFrom_cbEn (p c s) : (continueFrom p c s).cbEn = s.cbEn := by
  cases p <;> simp only [continueFrom] <;> (try split) <;> simp
@[simp] theorem continueFrom_aborted (p c s) : (continueFrom p c s).aborted = s.aborted := by
  cases p <;> simp only [continueFrom] <;> (try split) <;> simp
@[simp] theorem continueFrom_tagWritten (p c s) : (continueFrom p c s).tagWritten = s.tagWritten := by
  cases p <;> simp only [continueFrom] <;> (try split) <;> simp
@[simp] theorem continueFrom_inbox (p c s) : (continueFrom p c s).inbox = s.inbox := by
  cases p <;> simp only [continueFrom] <;> (try split) <;> simp
@[simp] theorem continueFrom_params (p c s) : (continueFrom p c s).params = s.params := by
  cases p <;> simp only [continueFrom] <;> (try split) <;> simp

/-! ### The guards: when they answer a next state -/

/-- A selected step answers next only in an EXECUTE between two steps, in its phase, on its bytes. -/
theorem selected_next {ph : BitVec 3} {bs : List Byte} {s t : State} {act : ExecCtx → Result}
    (h : selected ph bs s act = .next t) : ∃ c, Selects s c ph bs ∧ act c = .next t := by
  unfold selected at h
  split at h
  · rename_i c hc
    split at h
    · rename_i hg
      exact ⟨c, ⟨hc, hg.1, hg.2.1, List.isPrefixOf_iff_prefix.mp hg.2.2⟩, h⟩
    · cases h
  · cases h

/-- Where its step is selected, the guard is transparent. -/
theorem selected_of {ph : BitVec 3} {bs : List Byte} {s : State} {c : ExecCtx} (act : ExecCtx → Result)
    (h : Selects s c ph bs) : selected ph bs s act = act c := by
  obtain ⟨hc, hw, hp, hb⟩ := h
  simp [selected, hc, hw, hp, List.isPrefixOf_iff_prefix.mpr hb]

/-- An operation of the host answers next only where rule R175 admits it. -/
theorem admitted_next {op : HostOp} {s t : State} {act : Result} (h : admitted op s act = .next t) :
    admits op (condition s) = true ∧ act = .next t := by
  unfold admitted at h
  split at h
  · exact ⟨‹_›, h⟩
  · cases h

/-- Where rule R175 admits an operation, the guard is transparent. -/
theorem admitted_of {op : HostOp} {s : State} (act : Result) (h : admits op (condition s) = true) :
    admitted op s act = act := by simp [admitted, h]

/-- Where rule R175 refuses an operation, it is refused by name. -/
theorem admitted_refused {op : HostOp} {s : State} (act : Result) (h : admits op (condition s) = false) :
    admitted op s act = .refused (refusalOf op (condition s)) := by simp [admitted, h]

/-- `requires` answers next only where the condition holds. -/
theorem requires_next {p : Prop} [Decidable p] {act : Result} {t : State} (h : requires p act = .next t) :
    p ∧ act = .next t := by
  unfold requires at h
  split at h
  · exact ⟨‹_›, h⟩
  · cases h

/-- An event's meaning answers next only at an emission point of its kind. -/
theorem atEmit_next {k : EventKind} {s t : State} (h : atEmit k s = .next t) :
    ∃ c p, s.ctx = some c ∧ c.wait = .emitting p ∧ p.kind = k ∧ t = emit p c s := by
  unfold atEmit at h
  split at h
  · rename_i c hc
    split at h
    · rename_i p hw
      split at h
      · rename_i hk
        cases h
        exact ⟨c, p, hc, hw, hk, rfl⟩
      · cases h
    · cases h
    · cases h
  · cases h

/-- At an emission point of its kind, an event's meaning is `emit`. -/
theorem atEmit_of {s : State} {c : ExecCtx} {p : EmitPoint} (hc : s.ctx = some c)
    (hw : c.wait = .emitting p) : atEmit p.kind s = .next (emit p c s) := by simp [atEmit, hc, hw]

/-- A register read answers next only where a read is admitted, and sends the value. -/
theorem readRegister_next {v : Word64} {s t : State} (h : readRegister v s = .next t) :
    admits .read (condition s) = true ∧ t = s.send (.rdata v) := by
  obtain ⟨ha, ht⟩ := admitted_next h
  cases ht
  exact ⟨ha, rfl⟩

/-- The event answer answers next only while an event is outstanding, in a state in which it can be. -/
theorem execEvtRsp_next {a : Bool} {s t : State} (h : execEvtRsp a s = .next t) :
    ∃ c p, SuspendedAt s c p ∧ EventState s ∧ t = answerEvent a p c s := by
  obtain ⟨ha, ht⟩ := admitted_next h
  obtain ⟨⟨c, p, hc, hw⟩, he⟩ := admits_answer.mp ha
  simp only [hc, hw] at ht
  cases ht
  exact ⟨c, p, ⟨hc, hw⟩, he, rfl⟩

/-- While an event is outstanding, its answer is given to the rule that emitted it. -/
theorem execEvtRsp_of {s : State} {c : ExecCtx} {p : EmitPoint} (a : Bool) (h : SuspendedAt s c p)
    (he : EventState s) : execEvtRsp a s = .next (answerEvent a p c s) := by
  unfold execEvtRsp
  rw [admitted_of _ (admits_answer.mpr ⟨⟨c, p, h⟩, he⟩)]
  simp only [h.1, h.2]

end Sys2Proof.Machine
end

