-- ==== Sys2Proof/Laws/Masking.lean ====
section
/-! SUPPORT. The masking transaction: what it sends and what it leaves alone, and the transform byte by
byte. -/

namespace Sys2Proof.Machine

theorem nextRotation_toNat (rot : BitVec 2) (n : Nat) :
    (nextRotation rot n).toNat = (rot.toNat + n) % 4 := by simp [nextRotation]

@[simp] theorem maskBytes_length (key rot src) : (maskBytes key rot src).length = src.length := by
  simp [maskBytes]

theorem keyByte_eq_keyAt (key : Key) (j : Nat) : keyByte key j = keyAt key (j % 4) := by
  have : j % 4 < 4 := Nat.mod_lt _ (by omega)
  unfold keyByte keyAt
  generalize j % 4 = n at *
  interval_cases n <;> rfl

@[simp] theorem maskTransaction_ps (k r src s) : (maskTransaction k r src s).ps = s.ps := rfl
@[simp] theorem maskTransaction_ctx (k r src s) : (maskTransaction k r src s).ctx = s.ctx := rfl
@[simp] theorem maskTransaction_cbEn (k r src s) : (maskTransaction k r src s).cbEn = s.cbEn := rfl
@[simp] theorem maskTransaction_aborted (k r src s) :
    (maskTransaction k r src s).aborted = s.aborted := rfl
@[simp] theorem maskTransaction_tagWritten (k r src s) :
    (maskTransaction k r src s).tagWritten = s.tagWritten := rfl
@[simp] theorem maskTransaction_inbox (k r src s) : (maskTransaction k r src s).inbox = s.inbox := rfl
@[simp] theorem maskTransaction_params (k r src s) : (maskTransaction k r src s).params = s.params := rfl

/-- A masking transaction sends the bytes on DOUT and one RSP record with the new rotation. -/
theorem maskTransaction_out (key : Key) (rot : BitVec 2) (src : List Byte) (s : State) :
    ∃ rsp, (maskTransaction key rot src s).out = s.out ++ [.dout (maskBytes key rot src), .rsp rsp] ∧
      rsp.newRot = nextRotation rot src.length := by
  obtain ⟨rsp, ho, _, hr⟩ :=
    respond_out none (some (nextRotation rot src.length)) (s.send (.dout (maskBytes key rot src)))
  exact ⟨rsp, by simpa [maskTransaction] using ho, hr _ rfl⟩

/-- MASK_BOUND answers next only with `aborted` = 0 and where the table admits it, and then it is the
transaction with the state's key and rotation. -/
theorem execMaskBound_next {src : List Byte} {s t : State} (h : execMaskBound src s = .next t) :
    s.aborted = false ∧ admits .maskBound (condition s) = true ∧
    t = maskTransaction s.ps.maskKey s.ps.maskRotation src
      (s.withPs { s.ps with maskRotation := nextRotation s.ps.maskRotation src.length }) := by
  unfold execMaskBound at h
  split at h
  · cases h
  · rename_i hab
    obtain ⟨ha, ht⟩ := admitted_next h
    cases ht
    exact ⟨by simpa using hab, ha, rfl⟩

/-- With `aborted` = 0 the table alone decides. -/
theorem execMaskBound_of {src : List Byte} {s : State} (h : s.aborted = false) : execMaskBound src s =
    admitted .maskBound s (.next (maskTransaction s.ps.maskKey s.ps.maskRotation src
      (s.withPs { s.ps with maskRotation := nextRotation s.ps.maskRotation src.length }))) := by
  simp [execMaskBound, h]

/-- R35: with `aborted` = 1 it is refused in every condition. -/
theorem execMaskBound_aborted {src : List Byte} {s : State} (h : s.aborted = true) :
    execMaskBound src s = .refused .afterAbort := by simp [execMaskBound, h]

end Sys2Proof.Machine
end

