-- ==== Sys2Proof/Laws/Exec.lean ====
section
/-! SUPPORT. Everything an operation can do, said once: the inductive `Effect` has one case for each way
`exec` can answer a next state, and `exec_effect` shows there is no other. -/

namespace Sys2Proof.Machine

/-- The reads of registers 0 to 9. -/
abbrev registerReads : List Instr :=
  [.readPhase, .readFlags, .readLength, .readRemaining, .readMaskKey, .readMaskRot, .readBodyDelivered,
   .readError, .readTag, .readCbEn]

/-- The event instruction of an emission point. -/
def EmitPoint.instr : EmitPoint → Instr
  | .header => .header
  | .body _ => .body
  | .frameEnd _ => .frameEnd

/-- `Effect s i t`: from `s`, instruction `i` can answer the next state `t`. -/
inductive Effect (s : State) : Instr → State → Prop
  | start (c f r o) : Selects s c phaseStart [b0Byte f r o] →
      Effect s (.start f r o) (advance 1 c (s.withPs { s.ps with
        opcode := o, fin := f, maskRotation := 0, bodyDelivered := 0, phase := phaseHead }))
  | headS7 (c m l) : Selects s c phaseHead [b1Byte m l] → l.toNat ≤ 125 →
      Effect s (.headS7 m l)
        (postLength c (s.withPs { s.ps with hasMask := m, length := shortLength l }))
  | headX16 (c m) : Selects s c phaseHead [b1Byte m 126] →
      Effect s (.headX16 m) (advance 1 c (s.withPs { s.ps with
        hasMask := m, length := 0, remaining := 2, phase := phaseLength }))
  | headX64 (c m) : Selects s c phaseHead [b1Byte m 127] →
      Effect s (.headX64 m) (advance 1 c (s.withPs { s.ps with
        hasMask := m, length := 0, remaining := 8, phase := phaseLength }))
  | lenbLast (c e) : Selects s c phaseLength [e] → s.ps.remaining = 1 →
      Effect s (.lenb e) (postLength c (s.withPs { s.ps with
        length := accumulateLength s.ps.length e, remaining := 0 }))
  | lenb (c e) : Selects s c phaseLength [e] → 2 ≤ s.ps.remaining.toNat → s.ps.remaining.toNat ≤ 8 →
      Effect s (.lenb e) (advance 1 c (s.withPs { s.ps with
        length := accumulateLength s.ps.length e, remaining := s.ps.remaining - 1 }))
  | maskbLast (c k) : Selects s c phaseMask [k] → s.ps.remaining = 1 →
      Effect s (.maskb k) (postMask c (s.withPs { s.ps with
        maskKey := setKeyByte s.ps.maskKey 3 k, remaining := 0 }))
  | maskb (c k) : Selects s c phaseMask [k] → 2 ≤ s.ps.remaining.toNat → s.ps.remaining.toNat ≤ 4 →
      Effect s (.maskb k) (advance 1 c (s.withPs { s.ps with
        maskKey := setKeyByte s.ps.maskKey (4 - s.ps.remaining.toNat) k,
        remaining := s.ps.remaining - 1 }))
  | bodyrun (c p) : Selects s c phaseBody p → 1 ≤ s.ps.remaining.toNat → p ≠ [] →
      p.length = runLength s.ps.remaining c.rest.length →
      Effect s (.bodyrun p) (reachEmit (.body p.length) c s)
  | badphase (c) : Selects s c s.ps.phase [] → 5 ≤ s.ps.phase.toNat → c.rest ≠ [] →
      Effect s .badphase (unknownState c s)
  | init : s.ctx = none →
      Effect s .init (respond none none { s with ps := initialised s.ps, aborted := false })
  | settings (cb) : s.ctx = none → Effect s (.settings cb) (respond none none { s with cbEn := cb })
  | executeEmpty : s.ctx = none → Effect s (.execute []) (finish 0 s)
  | execute (b p) : s.ctx = none → s.aborted = false →
      (s.ps.error = .unknownState ∨ 5 ≤ s.ps.phase.toNat ∨ wf s.ps = true) →
      Effect s (.execute (b :: p)) (s.withCtx (some
        { n := (b :: p).length, pos := 0, rest := b :: p, wait := .running }))
  | maskBound (src) : s.aborted = false → s.ctx = none ∨ Suspended s →
      Effect s (.maskBound src) (maskTransaction s.ps.maskKey s.ps.maskRotation src (s.withPs
        { s.ps with maskRotation := nextRotation s.ps.maskRotation src.length }))
  | maskFree (k r src) : Effect s (.maskFree k r src) (maskTransaction k r src s)
  | emit (c p) : s.ctx = some c → c.wait = .emitting p → Effect s p.instr (emit p c s)
  | answerContinue (c p) : SuspendedAt s c p → EventState s → Effect s (.evtRsp false) (continueFrom p c s)
  | answerAbort (c p) : SuspendedAt s c p → EventState s → Effect s (.evtRsp true) (callbackAbort p c s)
  | read (i v) : i ∈ registerReads → Effect s i (s.send (.rdata v))
  | readFree (i v) : (i = .readTag ∨ ∃ n, i = .regReserved n false) → Effect s i (s.tick.send (.rdata v))
  | tag (v) : Effect s (.tag v)
      { s with ps := { s.ps with tag := truncateTag s.params v }, tagWritten := true }
  | reset : Effect s .reset (State.tick { s with
      ps := ParserState.initial (truncateTag s.params (Config.freeTag s.draw)),
      cbEn := 0, aborted := false, tagWritten := false, ctx := none })

/-- A counter of at least 1 reaches 0 exactly when it was 1. -/
theorem counter_last {r : Word64} (h : 1 ≤ r.toNat) : r - 1 = 0 ↔ r = 1 := by
  constructor <;> intro h' <;> bv_omega

theorem Effect.ofEvent {k : EventKind} {i : Instr} {s t : State} (hk : ∀ p : EmitPoint, p.kind = k → p.instr = i)
    (h : atEmit k s = .next t) : Effect s i t := by
  obtain ⟨c, p, hc, hw, hp, rfl⟩ := atEmit_next h
  exact hk p hp ▸ .emit c p hc hw

theorem Effect.ofRead {i : Instr} {v : Word64} {s t : State} (hi : i ∈ registerReads)
    (h : readRegister v s = .next t) : Effect s i t := by
  obtain ⟨_, rfl⟩ := readRegister_next h
  exact .read i v hi

theorem Effect.ofExecute {buf : List Byte} {s t : State} (h : execExecute buf s = .next t) :
    Effect s (.execute buf) t := by
  obtain ⟨ha, ht⟩ := admitted_next h
  cases ht
  have hc := admits_idle ha (by simp)
  cases buf with
  | nil => exact .executeEmpty hc
  | cons b p =>
    rw [condition_idle hc] at ha
    split at ha
    · cases ha
    · rename_i hab
      refine .execute b p hc (by simpa using hab) ?_
      split at ha
      · rename_i he
        simp only [invalidPhase, decide_eq_true_eq] at he
        tauto
      · split at ha
        · exact .inr (.inr ‹_›)
        · split at ha <;> cases ha

/-- What `exec` can do: `Effect`, and nothing else. -/
theorem exec_effect {i : Instr} {s t : State} (h : exec i s = .next t) : Effect s i t := by
  cases i with
  | start f r o => obtain ⟨c, hs, ht⟩ := selected_next h; cases ht; exact .start c f r o hs
  | headS7 m l =>
    obtain ⟨c, hs, ht⟩ := selected_next h
    split at ht
    · cases ht; exact .headS7 c m l hs (by rename_i hl; simpa [len7Ok] using hl)
    · cases ht
  | headX16 m => obtain ⟨c, hs, ht⟩ := selected_next h; cases ht; exact .headX16 c m hs
  | headX64 m => obtain ⟨c, hs, ht⟩ := selected_next h; cases ht; exact .headX64 c m hs
  | lenb e =>
    obtain ⟨c, hs, hq⟩ := selected_next h
    obtain ⟨hr, ht⟩ := requires_next hq
    simp only [withPs_ps, counter_last hr.1] at ht
    split at ht <;> cases ht
    · rename_i h1
      simpa [h1] using Effect.lenbLast c e hs h1
    · exact .lenb c e hs (by have : s.ps.remaining ≠ 1 := ‹_›; bv_omega) hr.2
  | maskb k =>
    obtain ⟨c, hs, hq⟩ := selected_next h
    obtain ⟨hr, ht⟩ := requires_next hq
    simp only [withPs_ps, counter_last hr.1] at ht
    split at ht <;> cases ht
    · rename_i h1
      simpa [h1] using Effect.maskbLast c k hs h1
    · exact .maskb c k hs (by have : s.ps.remaining ≠ 1 := ‹_›; bv_omega) hr.2
  | bodyrun p =>
    obtain ⟨c, hs, hq⟩ := selected_next h
    obtain ⟨hr, ht⟩ := requires_next hq
    split at ht <;> cases ht
    rename_i h1
    exact .bodyrun c p hs hr h1.2 h1.1
  | badphase =>
    obtain ⟨c, hs, ht⟩ := selected_next h
    split at ht <;> cases ht
    rename_i h1
    exact .badphase c hs (by simpa [invalidPhase] using h1.1) h1.2
  | init => obtain ⟨ha, ht⟩ := admitted_next h; cases ht; exact .init (admits_idle ha (by simp))
  | settings cb => obtain ⟨ha, ht⟩ := admitted_next h; cases ht; exact .settings cb (admits_idle ha (by simp))
  | execute buf => exact .ofExecute h
  | maskBound src =>
    obtain ⟨hab, ha, rfl⟩ := execMaskBound_next h; exact .maskBound src hab (admits_quiet ha (by simp))
  | maskFree k r src => obtain ⟨_, ht⟩ := admitted_next h; cases ht; exact .maskFree k r src
  | cmdReserved => cases h
  | header => exact .ofEvent (fun p hp => by cases p <;> first | rfl | cases hp) h
  | body => exact .ofEvent (fun p hp => by cases p <;> first | rfl | cases hp) h
  | frameEnd => exact .ofEvent (fun p hp => by cases p <;> first | rfl | cases hp) h
  | evtReserved => cases h
  | evtRsp a =>
    obtain ⟨c, p, hs, he, rfl⟩ := execEvtRsp_next h
    cases a
    · exact .answerContinue c p hs he
    · exact .answerAbort c p hs he
  | readTag =>
    have h : execReadTag s = .next t := h
    unfold execReadTag at h
    split at h
    · exact .ofRead (by simp) h
    · obtain ⟨_, rfl⟩ := readRegister_next h; exact .readFree _ _ (.inl rfl)
  | tag v => obtain ⟨_, ht⟩ := admitted_next h; cases ht; exact .tag v
  | regReserved n w =>
    cases w with
    | true => cases h
    | false => obtain ⟨_, rfl⟩ := readRegister_next h; exact .readFree _ _ (.inr ⟨n, rfl⟩)
  | reset => cases h; exact .reset
  | readPhase | readFlags | readLength | readRemaining | readMaskKey | readMaskRot | readBodyDelivered
  | readError | readCbEn => exact .ofRead (by simp) h

/-- What a step can do: wait, end the loop of an EXECUTE, or run the instruction the decoder gives, with
at most a record taken from the inbox. -/
theorem step_cases {s t : State} (h : step s = .next t) :
    t = s ∨ (∃ c, s.ctx = some c ∧ c.wait = .running ∧ c.rest = [] ∧ t = finish c.n s) ∨
    ∃ e i s', decode s.params e = .ok i ∧ exec i s' = .next t ∧
      (s' = s ∨ ∃ rs, s' = { s with inbox := rs }) := by
  have word : ∀ e s', runFetched s (.word e s') = .next t →
      ∃ i, decode s.params e = .ok i ∧ exec i s' = .next t := by
    intro e s' h
    simp only [runFetched] at h
    split at h
    · exact ⟨_, ‹_›, h⟩
    · cases h
  have host : runFetched s (fetchHost s) = .next t → t = s ∨ ∃ e i s', decode s.params e = .ok i ∧
      exec i s' = .next t ∧ (s' = s ∨ ∃ rs, s' = { s with inbox := rs }) := by
    intro h
    unfold fetchHost at h
    split at h
    · cases h; exact .inl rfl
    · obtain ⟨i, hd, he⟩ := word _ _ h
      exact .inr ⟨_, i, _, hd, he, .inr ⟨_, rfl⟩⟩
  unfold step fetch at h
  split at h
  · exact (host h).imp id .inr
  · rename_i c hc
    split at h
    · exact (host h).imp id .inr
    · obtain ⟨i, hd, he⟩ := word _ _ h
      exact .inr (.inr ⟨_, i, _, hd, he, .inl rfl⟩)
    · rename_i hw
      split at h
      · rename_i hr
        cases h
        exact .inr (.inl ⟨c, hc, hw, by simpa using hr, rfl⟩)
      · obtain ⟨i, hd, he⟩ := word _ _ h
        exact .inr (.inr ⟨_, i, _, hd, he, .inl rfl⟩)

end Sys2Proof.Machine
end

