-- ==== Sys2Proof/Laws/Operands.lean ====
section
/-! SUPPORT. The bit fields: a byte or a key taken apart gives back the fields it was made of. -/

namespace Sys2Proof.Machine

@[simp] theorem b0Fin_b0Byte (f r o) : b0Fin (b0Byte f r o) = f := by
  revert f r o; decide
@[simp] theorem b0Rsv_b0Byte (f r o) : b0Rsv (b0Byte f r o) = r := by
  revert f r o; decide
@[simp] theorem b0Opcode_b0Byte (f r o) : b0Opcode (b0Byte f r o) = o := by
  revert f r o; decide
@[simp] theorem b0Byte_fields (b : Byte) : b0Byte (b0Fin b) (b0Rsv b) (b0Opcode b) = b := by
  revert b; decide
@[simp] theorem b1Mask_b1Byte (m l) : b1Mask (b1Byte m l) = m := by
  revert m l; decide
@[simp] theorem b1Len7_b1Byte (m l) : b1Len7 (b1Byte m l) = l := by
  revert m l; decide
@[simp] theorem b1Byte_fields (b : Byte) : b1Byte (b1Mask b) (b1Len7 b) = b := by
  revert b; decide

/-- A key survives the 32-bit operand of MASK_FREE. -/
@[simp] theorem keyOfWord_keyWord (k : Key) : keyOfWord (keyWord k) = k := by
  obtain ⟨a, b, c, d⟩ := k
  simp only [keyOfWord, keyWord, Key.mk.injEq]
  refine ⟨?_, ?_, ?_, ?_⟩ <;>
    (apply BitVec.eq_of_getLsbD_eq
     intro i hi
     simp only [BitVec.getLsbD_extractLsb', BitVec.getLsbD_append, hi, decide_true, Bool.true_and]
     repeat' split
     all_goals first | omega | (congr 1; omega))

end Sys2Proof.Machine
end

