-- ==== Sys2Proof/Laws/PerInstr.lean ====
section
/-! SUPPORT. The family `Format`: every instruction is encoded in the format its row of
spec/opcode_table.json names. -/

namespace Sys2Proof.Laws

/-- The formats of spec/opcode_table.json. -/
inductive RowFormat where
  | b0 | b1 | raw | run | none | cmd | evt | rsp1 | reg | rst
  deriving DecidableEq, Repr

/-- The format of an encoded instruction: by phase for the parser's steps (R95), by channel for the rest. -/
def formatOf : Encoded → RowFormat
  | .step phase _ => match phase.toNat with
    | 0 => .b0
    | 1 => .b1
    | 2 => .raw
    | 3 => .raw
    | 4 => .run
    | _ => .none
  | .event _ => .evt
  | .host (.cmd _ _) => .cmd
  | .host (.evtRsp _) => .rsp1
  | .host (.reg _) => .reg
  | .host .rst => .rst

/-- The `format` column of spec/opcode_table.json. -/
def rowFormat : Instr → RowFormat
  | .start _ _ _ => .b0
  | .headS7 _ _ => .b1
  | .headX16 _ => .b1
  | .headX64 _ => .b1
  | .lenb _ => .raw
  | .maskb _ => .raw
  | .bodyrun _ => .run
  | .badphase => .none
  | .init => .cmd
  | .settings _ => .cmd
  | .execute _ => .cmd
  | .maskBound _ => .cmd
  | .maskFree _ _ _ => .cmd
  | .cmdReserved _ => .cmd
  | .header => .evt
  | .body => .evt
  | .frameEnd => .evt
  | .evtReserved => .evt
  | .evtRsp _ => .rsp1
  | .readPhase => .reg
  | .readFlags => .reg
  | .readLength => .reg
  | .readRemaining => .reg
  | .readMaskKey => .reg
  | .readMaskRot => .reg
  | .readBodyDelivered => .reg
  | .readError => .reg
  | .readTag => .reg
  | .readCbEn => .reg
  | .tag _ => .reg
  | .regReserved _ _ => .reg
  | .reset => .rst

/-- The instruction is encoded in its row's format. -/
def Format.Statement (i : Instr) : Prop := formatOf (encode i) = rowFormat i

theorem Format.start fin rsv opcode : Format.Statement (.start fin rsv opcode) := rfl
theorem Format.headS7 mask len7 : Format.Statement (.headS7 mask len7) := rfl
theorem Format.headX16 mask : Format.Statement (.headX16 mask) := rfl
theorem Format.headX64 mask : Format.Statement (.headX64 mask) := rfl
theorem Format.lenb e : Format.Statement (.lenb e) := rfl
theorem Format.maskb k : Format.Statement (.maskb k) := rfl
theorem Format.bodyrun p : Format.Statement (.bodyrun p) := rfl
theorem Format.badphase : Format.Statement .badphase := rfl
theorem Format.init : Format.Statement .init := rfl
theorem Format.settings cb : Format.Statement (.settings cb) := rfl
theorem Format.execute buf : Format.Statement (.execute buf) := rfl
theorem Format.maskBound src : Format.Statement (.maskBound src) := rfl
theorem Format.maskFree key rot src : Format.Statement (.maskFree key rot src) := rfl
theorem Format.cmdReserved code : Format.Statement (.cmdReserved code) := rfl
theorem Format.header : Format.Statement .header := rfl
theorem Format.body : Format.Statement .body := rfl
theorem Format.frameEnd : Format.Statement .frameEnd := rfl
theorem Format.evtReserved : Format.Statement .evtReserved := rfl
theorem Format.evtRsp abort : Format.Statement (.evtRsp abort) := rfl
theorem Format.readPhase : Format.Statement .readPhase := rfl
theorem Format.readFlags : Format.Statement .readFlags := rfl
theorem Format.readLength : Format.Statement .readLength := rfl
theorem Format.readRemaining : Format.Statement .readRemaining := rfl
theorem Format.readMaskKey : Format.Statement .readMaskKey := rfl
theorem Format.readMaskRot : Format.Statement .readMaskRot := rfl
theorem Format.readBodyDelivered : Format.Statement .readBodyDelivered := rfl
theorem Format.readError : Format.Statement .readError := rfl
theorem Format.readTag : Format.Statement .readTag := rfl
theorem Format.readCbEn : Format.Statement .readCbEn := rfl
theorem Format.tag wdata : Format.Statement (.tag wdata) := rfl
theorem Format.regReserved number write : Format.Statement (.regReserved number write) := rfl
theorem Format.reset : Format.Statement .reset := rfl

end Sys2Proof.Laws
end

