-- ==== Sys2Proof/Laws/Runs.lean ====
section
/-! SUPPORT. Runs of driven steps: how they compose, what one driven step is in each condition of the
block, and the items and counts of a concatenation. -/

namespace Sys2Proof.Machine

/-! ### Composition -/

/-- A run goes on from where its first part ended. -/
theorem driveN_of_next {j : Nat} {s t : State} (k : Nat) (h : driveN j s = .next t) :
    driveN (j + k) s = driveN k t := by
  induction j generalizing s with
  | zero => cases h; rw [Nat.zero_add]
  | succ j ih =>
    rw [Nat.succ_add]
    simp only [driveN] at h ⊢
    split at h
    · exact ih h
    · cases h
    · cases h

/-- A run whose first driven step answers next is that step and the rest. -/
theorem driveN_succ {s t : State} (k : Nat) (h : drive s = .next t) : driveN (k + 1) s = driveN k t := by
  simp [driveN, h]

/-! ### One driven step in each condition -/

/-- With nothing from the host an idle block stays as it is. -/
theorem drive_idle {s : State} (hc : s.ctx = none) (hi : s.inbox = []) : drive s = .next s := by
  simp [drive, hc, step, fetch, fetchHost, hi, runFetched]

/-- So does it through any number of steps. -/
theorem driveN_idle {s : State} (k : Nat) (hc : s.ctx = none) (hi : s.inbox = []) : driveN k s = .next s := by
  induction k with
  | zero => rfl
  | succ k ih => rw [driveN_succ k (drive_idle hc hi), ih]

/-- A suspended block is answered Continue. -/
theorem drive_suspended {s : State} {c : ExecCtx} {p : EmitPoint} (h : SuspendedAt s c p)
    (he : EventState s) : drive s = .next (continueFrom p c s) := by
  simp only [drive, h.1, h.2]
  exact execEvtRsp_of false h he

/-- At an emission point the event is next. -/
theorem drive_emitting {s : State} {c : ExecCtx} {p : EmitPoint} (hc : s.ctx = some c)
    (hw : c.wait = .emitting p) : drive s = .next (emit p c s) := by
  cases p <;> simp [drive, step, fetch, hc, hw, runFetched, eventCode, EmitPoint.kind, decode, decodeEvent,
    exec, execHeader, execBody, execFrameEnd, atEmit]

/-- Between two steps, with bytes left, the step of the phase and the bytes in front is next. -/
theorem drive_running {s : State} {c : ExecCtx} {i : Instr} (hc : s.ctx = some c) (hw : c.wait = .running)
    (hr : c.rest ≠ []) (hd : decode s.params (.step s.ps.phase (bytesInFront s.ps c.rest)) = .ok i) :
    drive s = exec i s := by
  simp [drive, step, fetch, hc, hw, hr, runFetched, hd]

/-! ### Items and counts of a concatenation -/

@[simp] theorem items_append (o o' : List OutRecord) : items (o ++ o') = items o ++ items o' := by
  simp [items]

@[simp] theorem counts_append (o o' : List OutRecord) : counts (o ++ o') = counts o ++ counts o' := by
  induction o with
  | nil => rfl
  | cons r o ih => cases r <;> simp [counts, ih]

/-- Masking in parts, one part taken off the front. -/
theorem maskParts_cons (key : Key) (rot : BitVec 2) (p : List Byte) (ps : List (List Byte)) :
    maskParts key rot (p :: ps) =
      (maskBytes key rot p ++ (maskParts key (nextRotation rot p.length) ps).1,
       (maskParts key (nextRotation rot p.length) ps).2) := rfl

end Sys2Proof.Machine
end

