-- ==== Sys2Proof/Tests/Slice0.lean ====
section
/-! SUPPORT. Small tests. Expected values come from the spec: the words from spec/30_encoding.md, the
outcomes from the vectors of spec/95_test_vectors.md (their ids stand at the tests). The last part gives,
for every obligation with hypotheses, states and operands that meet them. -/

namespace Sys2Proof.Tests

open Sys2Proof Sys2Proof.Machine

/-! ### WellFormed: the smoke test -/

/-- Parameters with one-bit counts: a buffer holds at most one byte. -/
def narrow : Params := { cntW := 1 }

theorem test_wf_headS7 : (Instr.headS7 false 126).wf {} = false ∧ (Instr.headS7 false 125).wf {} = true := by
  decide
theorem test_wf_bodyrun : (Instr.bodyrun []).wf {} = false ∧ (Instr.bodyrun [0]).wf {} = true := by decide
theorem test_wf_execute :
    (Instr.execute [0, 0]).wf narrow = false ∧ (Instr.execute [0]).wf narrow = true := by decide
theorem test_wf_maskBound :
    (Instr.maskBound [0, 0]).wf narrow = false ∧ (Instr.maskBound []).wf narrow = true := by decide
theorem test_wf_maskFree : (Instr.maskFree Key.zero 3 [0, 0]).wf narrow = false ∧
    (Instr.maskFree Key.zero 3 [0]).wf narrow = true := by decide
theorem test_wf_cmdReserved : (Instr.cmdReserved 4).wf {} = false ∧ (Instr.cmdReserved 5).wf {} = true := by
  decide
theorem test_wf_regReserved : (Instr.regReserved 9 false).wf {} = false ∧
    (Instr.regReserved 10 false).wf {} = true ∧ (Instr.regReserved 15 true).wf {} = true := by decide

/-! ### Decode: one word for every row, written from the encoding tables of spec/30_encoding.md -/

/-- R81: `0x81` is FIN 1, RSV 0, OPCODE 1; `0x7A` is FIN 0, RSV 7, OPCODE 10 (T6). -/
theorem test_decode_start :
    decode {} (.step 0b000 [0b10000001]) = .ok (.start true 0b000 0b0001) ∧
    decode {} (.step 0b000 [0b01111010]) = .ok (.start false 0b111 0b1010) := by decide
/-- R82: `0x85` is MASK 1, LEN7 5; `0x7D` is MASK 0, LEN7 125. -/
theorem test_decode_headS7 :
    decode {} (.step 0b001 [0b10000101]) = .ok (.headS7 true 0b0000101) ∧
    decode {} (.step 0b001 [0b01111101]) = .ok (.headS7 false 0b1111101) := by decide
/-- R82, R95: LEN7 126 and 127, with either MASK. -/
theorem test_decode_headX :
    decode {} (.step 0b001 [0b01111110]) = .ok (.headX16 false) ∧
    decode {} (.step 0b001 [0b11111110]) = .ok (.headX16 true) ∧
    decode {} (.step 0b001 [0b01111111]) = .ok (.headX64 false) ∧
    decode {} (.step 0b001 [0b11111111]) = .ok (.headX64 true) := by decide
/-- R83 to R86: RAW bytes of Length and Mask, and a run in Body. -/
theorem test_decode_raw :
    decode {} (.step 0b010 [0b11101110]) = .ok (.lenb 0xEE) ∧
    decode {} (.step 0b011 [0b00110111]) = .ok (.maskb 0x37) ∧
    decode {} (.step 0b100 [0x7F, 0x9F]) = .ok (.bodyrun [0x7F, 0x9F]) := by decide
/-- R95: the three invalid phases take no byte. -/
theorem test_decode_badphase : decode {} (.step 0b101 []) = .ok .badphase ∧
    decode {} (.step 0b110 []) = .ok .badphase ∧ decode {} (.step 0b111 []) = .ok .badphase := by decide
/-- R55: a header phase takes exactly one byte, Body at least one, an invalid phase none. -/
theorem test_decode_byteCount : decode {} (.step 0 []) = .error .byteCount ∧
    decode {} (.step 3 [1, 2]) = .error .byteCount ∧ decode {} (.step 4 []) = .error .byteCount ∧
    decode {} (.step 6 [1]) = .error .byteCount := by decide
/-- R94: the command codes, with operands a command does not use set to other values. -/
theorem test_decode_commands :
    decode {} (.host (.cmd { code := 0b000, cb := 7, key := 1, rot := 1 } [])) = .ok .init ∧
    decode {} (.host (.cmd { code := 0b001, cb := 0b101 } [])) = .ok (.settings 0b101) ∧
    decode {} (.host (.cmd { code := 0b010, n := 2 } [0x81, 0x00])) = .ok (.execute [0x81, 0x00]) ∧
    decode {} (.host (.cmd { code := 0b011, n := 1 } [0x4D])) = .ok (.maskBound [0x4D]) := by decide
/-- R94: `key[31:24]` is key byte 0. -/
theorem test_decode_maskFree :
    decode {} (.host (.cmd { code := 0b100, key := 0x37FA213D, rot := 0b10, n := 1 } [0x4D])) =
      .ok (.maskFree ⟨0x37, 0xFA, 0x21, 0x3D⟩ 2 [0x4D]) := by decide
/-- R96: command codes 5 to 7. -/
theorem test_decode_cmdReserved :
    decode {} (.host (.cmd { code := 0b101 } [])) = .ok (.cmdReserved 5) ∧
    decode {} (.host (.cmd { code := 0b111 } [])) = .ok (.cmdReserved 7) := by decide
/-- R50, R58: the bytes on DIN are the `n` the command announces, below `2^CNT_W`. -/
theorem test_decode_dinCount :
    decode {} (.host (.cmd { code := 2, n := 3 } [0x81, 0x00])) = .error .dinCount ∧
    decode narrow (.host (.cmd { code := 3, n := 2 } [0, 0])) = .error .dinCount := by decide
/-- R93: the event kinds. -/
theorem test_decode_events : decode {} (.event 0b00) = .ok .header ∧ decode {} (.event 0b01) = .ok .body ∧
    decode {} (.event 0b10) = .ok .frameEnd ∧ decode {} (.event 0b11) = .ok .evtReserved := by decide
/-- R93: the answer, 0 Continue, 1 Abort. -/
theorem test_decode_evtRsp : decode {} (.host (.evtRsp 0b0)) = .ok (.evtRsp false) ∧
    decode {} (.host (.evtRsp 0b1)) = .ok (.evtRsp true) := by decide
/-- R39: the register numbers. -/
theorem test_decode_reads :
    decode {} (.host (.reg { number := 0b0000 })) = .ok .readPhase ∧
    decode {} (.host (.reg { number := 0b0001 })) = .ok .readFlags ∧
    decode {} (.host (.reg { number := 0b0010 })) = .ok .readLength ∧
    decode {} (.host (.reg { number := 0b0011 })) = .ok .readRemaining ∧
    decode {} (.host (.reg { number := 0b0100 })) = .ok .readMaskKey ∧
    decode {} (.host (.reg { number := 0b0101 })) = .ok .readMaskRot ∧
    decode {} (.host (.reg { number := 0b0110 })) = .ok .readBodyDelivered ∧
    decode {} (.host (.reg { number := 0b0111 })) = .ok .readError ∧
    decode {} (.host (.reg { number := 0b1000 })) = .ok .readTag ∧
    decode {} (.host (.reg { number := 0b1001 })) = .ok .readCbEn := by decide
/-- R39, R96: register 8 is the only one written; 0 to 7 and 9 are read-only; 10 to 15 are reserved. -/
theorem test_decode_writes :
    decode {} (.host (.reg { number := 0b1000, write := true, wdata := 0x1234 })) = .ok (.tag 0x1234) ∧
    decode {} (.host (.reg { number := 0b0111, write := true })) = .error (.readOnlyRegister 7) ∧
    decode {} (.host (.reg { number := 0b1001, write := true })) = .error (.readOnlyRegister 9) ∧
    decode {} (.host (.reg { number := 0b1010, write := true })) = .ok (.regReserved 10 true) ∧
    decode {} (.host (.reg { number := 0b1111 })) = .ok (.regReserved 15 false) := by decide
/-- R57: channel RST carries no data. -/
theorem test_decode_reset : decode {} (.host .rst) = .ok .reset := by decide

/-- The words of spec/opcode_table.json without a channel (log 12). -/
theorem test_tableWord : decodeTableWord 8 0x7E = some (.headX16 false) ∧
    decodeTableWord 8 0x7F = some (.headX64 false) ∧ decodeTableWord 8 0 = some .init ∧
    decodeTableWord 8 4 = some (.maskFree Key.zero 0 []) ∧ decodeTableWord 8 9 = some .readCbEn ∧
    decodeTableWord 2 1 = some .body ∧ decodeTableWord 1 1 = some (.evtRsp true) := by decide

/-! ### States for the single-step tests -/

/-- The idle block after INIT, all events enabled, `tag` written. -/
def idle : State := { State.reset with cbEn := 7, tagWritten := true }

/-- An EXECUTE of `rest` between two steps. -/
def running (p : ParserState) (rest : List Byte) : State :=
  { idle with ps := p, ctx := some { n := rest.length, pos := 0, rest := rest, wait := .running } }

/-- An EXECUTE of `rest` at an emission point. -/
def emitting (p : ParserState) (rest : List Byte) (pt : EmitPoint) : State :=
  { idle with ps := p, ctx := some { n := rest.length, pos := 0, rest := rest, wait := .emitting pt } }

/-- An EXECUTE of `rest` suspended in an event. -/
def suspended (p : ParserState) (rest : List Byte) (pt : EmitPoint) : State :=
  { idle with ps := p, ctx := some { n := rest.length, pos := 0, rest := rest, wait := .suspended pt } }

/-- The INIT state. -/
def p0 : ParserState := ParserState.initial 0

/-- The state after `EXECUTE [0x81]` from INIT, the start state of T7 to T16. -/
def pHead : ParserState := { p0 with phase := phaseHead, opcode := 1, fin := true }

/-- The state left by a finished masked frame of 77 bytes, the start state of T1 to T6. -/
def pOld : ParserState := { p0 with
  opcode := 9, fin := true, hasMask := true, maskKey := ⟨1, 2, 3, 4⟩, maskRotation := 3,
  bodyDelivered := 77 }

/-- The fifth byte of the frame of V5 is next: three key bytes taken. -/
def pMask : ParserState := { pHead with
  phase := phaseMask, hasMask := true, length := 5, remaining := 1, maskKey := ⟨0x37, 0xFA, 0x21, 0⟩ }

/-- The body of V7 after its first call: 2 of 5 bytes delivered. -/
def pBody : ParserState := { p0 with
  phase := phaseBody, opcode := 2, fin := true, length := 5, remaining := 3, bodyDelivered := 2 }

/-- The same frame at its HEADER. -/
def pFirst : ParserState := { pBody with remaining := 5, bodyDelivered := 0 }

/-- The same frame at its END. -/
def pLast : ParserState := { pBody with remaining := 0, bodyDelivered := 5 }

/-- A masked frame of 5 bytes, 2 delivered and presented to MASK_BOUND: the example of R152. -/
def pKeyed : ParserState := { pBody with
  hasMask := true, maskKey := ⟨0x37, 0xFA, 0x21, 0x3D⟩, maskRotation := 2 }

/-- ParserState after one operation. -/
def psOf : Result → Option ParserState
  | .next t => some t.ps
  | .fault _ => none
  | .refused _ => none

/-- The context after one operation. -/
def ctxOf : Result → Option (Option ExecCtx)
  | .next t => some t.ctx
  | .fault _ => none
  | .refused _ => none

/-- The output after one operation. -/
def outOf : Result → Option (List OutRecord)
  | .next t => some t.out
  | .fault _ => none
  | .refused _ => none

/-! ### Single steps -/

/-- T1, T3, T2: what START writes and what it keeps. -/
theorem test_start :
    psOf (step (running pOld [0x81, 0])) = some { pOld with
      opcode := 1, fin := true, maskRotation := 0, bodyDelivered := 0, phase := phaseHead } ∧
    psOf (step (running pOld [0xF1, 0])) = psOf (step (running pOld [0x81, 0])) ∧
    (psOf (step (running pOld [0x02]))).map (·.fin) = some false := by decide
/-- T8, T12: a short unmasked frame comes to HEADER in Body, a masked one goes to Mask. -/
theorem test_headS7 :
    psOf (step (running pHead [0x05])) = some { pHead with phase := phaseBody, length := 5, remaining := 5 } ∧
    psOf (step (running pHead [0xFD])) = some { pHead with
      phase := phaseMask, hasMask := true, length := 125, remaining := 4 } := by decide
/-- T7: a zero-length frame comes to HEADER with the phase still Head. -/
theorem test_headS7_zero : psOf (step (running pHead [0x00])) = some pHead ∧
    (ctxOf (step (running pHead [0x00]))).map (·.map (·.wait)) = some (some (.emitting .header)) := by decide
/-- T13, T16. -/
theorem test_headX :
    psOf (step (running pHead [0x7E])) = some { pHead with phase := phaseLength, remaining := 2 } ∧
    psOf (step (running pHead [0xFF])) = some { pHead with
      phase := phaseLength, hasMask := true, remaining := 8 } := by decide
/-- T22: `0x01` then `0x02` is 258; R120: the last byte of V2 gives 256 and enters Body. -/
theorem test_lenb :
    (psOf (step (running { pHead with phase := phaseLength, length := 1, remaining := 7 } [0x02]))).map
      (·.length) = some 258 ∧
    psOf (step (running { pHead with phase := phaseLength, length := 1, remaining := 1 } [0x00])) =
      some { pHead with phase := phaseBody, length := 256, remaining := 256 } := by decide
/-- V5, T25: the fourth key byte, and a stale byte left in place. -/
theorem test_maskb :
    psOf (step (running pMask [0x3D])) = some { pMask with
      phase := phaseBody, remaining := 5, maskKey := ⟨0x37, 0xFA, 0x21, 0x3D⟩ } ∧
    (psOf (step (running { pMask with remaining := 3, maskKey := ⟨0xB1, 0xA2, 0xA3, 0xA4⟩ } [0xB2]))).map
      (·.maskKey) = some ⟨0xB1, 0xB2, 0xA3, 0xA4⟩ := by decide
/-- T26: the run stops at the end of the frame, and the counters have not moved at the BODY event. -/
theorem test_bodyrun : psOf (step (running pBody [3, 4, 5, 0x81])) = some pBody ∧
    (ctxOf (step (running pBody [3, 4, 5, 0x81]))).map (·.map (·.wait)) =
      some (some (.emitting (.body 3))) := by decide
/-- T29: phase 6, the error is set and nothing else changes. -/
theorem test_badphase :
    psOf (step (running { p0 with phase := 6 } [1, 2, 3])) =
      some { p0 with phase := 6, error := .unknownState } ∧
    ctxOf (step (running { p0 with phase := 6 } [1, 2, 3])) = some none := by decide
/-- T30: an empty EXECUTE does not notice the invalid phase. -/
theorem test_execute_empty : psOf (exec (.execute []) { idle with ps := { p0 with phase := 5 } }) =
    some { p0 with phase := 5 } := by decide
/-- R110, R111: an EXECUTE begins at position 0. -/
theorem test_execute : ctxOf (exec (.execute [0x81, 0]) idle) =
    some (some { n := 2, pos := 0, rest := [0x81, 0], wait := .running }) := by decide
/-- HO1: INIT keeps the tag. -/
theorem test_init : psOf (exec .init { idle with ps := { pOld with tag := 0x1234 } }) =
    some { p0 with tag := 0x1234 } := by decide
/-- R171: SETTINGS 0b101. -/
theorem test_settings : (match exec (.settings 0b101) State.reset with
    | .next t => some t.cbEn
    | .fault _ => none
    | .refused _ => none) = some 0b101 := by decide
/-- R151: "Hello" under the key of V4, and the order of the key from rotation 3. -/
theorem test_maskBytes :
    maskBytes ⟨0x37, 0xFA, 0x21, 0x3D⟩ 0 [0x48, 0x65, 0x6C, 0x6C, 0x6F] =
      [0x7F, 0x9F, 0x4D, 0x51, 0x58] ∧
    nextRotation 0 5 = 1 ∧ maskBytes ⟨1, 2, 3, 4⟩ 3 [0, 0] = [4, 1] := by decide
/-- R152: "llo" from rotation 2, and the rotation written back. -/
theorem test_maskBound :
    psOf (exec (.maskBound [0x4D, 0x51, 0x58]) { idle with ps := pKeyed }) =
      some { pKeyed with maskRotation := 1 } ∧
    maskBytes ⟨0x37, 0xFA, 0x21, 0x3D⟩ 2 [0x4D, 0x51, 0x58] = [0x6C, 0x6C, 0x6F] := by decide
/-- R35, R152: with `aborted` = 1 MASK_BOUND is refused in a suspended state too. -/
theorem test_maskBound_aborted :
    exec (.maskBound [1]) { suspended pKeyed [1] (.body 1) with aborted := true } = .refused .afterAbort := rfl
/-- R37, U6: a state not WF by its rotation alone refuses EXECUTE and runs MASK_BOUND (U16). -/
theorem test_outOfStep :
    exec (.execute [0]) { idle with ps := { pHead with maskRotation := 3 } } = .refused .unreachableState ∧
    psOf (exec (.maskBound [0]) { idle with ps := { pHead with maskRotation := 3 } }) = some pHead :=
  ⟨rfl, by decide⟩
/-- AB1 to AB3, AB8: the count of an abort. -/
theorem test_abortOffset : abortOffset .header = 0 ∧ abortOffset (.frameEnd 1) = 0 ∧
    abortOffset (.body 3) = 0 ∧ abortOffset (.frameEnd 3) = 2 := by decide
/-- V7: a refused BODY moves no counter. -/
theorem test_abort : psOf (exec (.evtRsp true) (suspended pBody [3, 4, 5] (.body 3))) = some pBody ∧
    ctxOf (exec (.evtRsp true) (suspended pBody [3, 4, 5] (.body 3))) = some none := by decide
/-- T26: an accepted BODY moves both, and the frame comes to END. -/
theorem test_continue_body :
    psOf (exec (.evtRsp false) (suspended pBody [3, 4, 5, 0x81] (.body 3))) =
      some { pBody with remaining := 0, bodyDelivered := 5 } ∧
    (ctxOf (exec (.evtRsp false) (suspended pBody [3, 4, 5, 0x81] (.body 3)))).map (·.map (·.wait)) =
      some (some (.emitting (.frameEnd 3))) := by decide
/-- EN4: with HEADER disabled the event is not sent and the parser goes on. -/
theorem test_disabled :
    outOf (step { emitting { pBody with remaining := 5, bodyDelivered := 0 } [5, 1] .header with cbEn := 0b100 }) = some [] ∧
    (ctxOf (step { emitting { pBody with remaining := 5, bodyDelivered := 0 } [5, 1] .header with cbEn := 0b100 })).map (·.map (·.pos)) =
      some (some 1) := by decide
/-- V1: the register reads after the frame, FLAGS = 0x11. -/
theorem test_reads :
    outOf (exec .readFlags { idle with ps := { p0 with opcode := 1, fin := true } }) = some [.rdata 0x11] ∧
    outOf (exec .readMaskKey { idle with ps := pOld }) = some [.rdata 0x01020304] ∧
    outOf (exec .readError { idle with ps := { p0 with error := .unknownState } }) = some [.rdata 1] := by
  decide
/-- R173: the low `TAG_W` bits are written. -/
theorem test_tag : (psOf (exec (.tag 0x1234) { idle with params := { tagW := 8 } })).map (·.tag) = some 0x34 := by
  decide
/-- R220: reset is taken in the middle of an event. -/
theorem test_reset : ctxOf (exec .reset (suspended pBody [3, 4, 5] (.body 3))) = some none ∧
    (psOf (exec .reset (suspended pBody [3, 4, 5] (.body 3)))).map (·.phase) = some phaseStart := by decide
/-- U15: a suspended block with nothing from the host waits. -/
theorem test_waits : step (suspended pBody [3] (.body 1)) = .next (suspended pBody [3] (.body 1)) := rfl
/-- R59, U4: an INIT inside a callback is refused. -/
theorem test_refusals : exec .init (suspended pBody [3] (.body 1)) = .refused .concurrentUse ∧
    exec (.execute [1]) { idle with aborted := true } = .refused .afterAbort ∧
    exec (.evtRsp true) idle = .refused .noEventOutstanding := ⟨rfl, rfl, rfl⟩
/-- A word placed by `withFetchWord` is the one the next step runs. -/
theorem test_withFetchWord :
    psOf (step (State.reset.withFetchWord 8 0x7E)) =
      some { p0 with phase := phaseLength, remaining := 2 } ∧
    outOf (step (State.reset.withFetchWord 4 9)) = some [.rdata 0] := by decide

/-! ### Witnesses: states and operands that meet the hypotheses of each obligation -/

/-- The context of `running`. -/
def runningCtx (rest : List Byte) : ExecCtx := { n := rest.length, pos := 0, rest := rest, wait := .running }
/-- The context of `suspended`. -/
def suspendedCtx (rest : List Byte) (pt : EmitPoint) : ExecCtx :=
  { n := rest.length, pos := 0, rest := rest, wait := .suspended pt }
/-- The context of `emitting`. -/
def emittingCtx (rest : List Byte) (pt : EmitPoint) : ExecCtx :=
  { n := rest.length, pos := 0, rest := rest, wait := .emitting pt }

theorem test_meets_DecodeEncodeRoundTrip : (Instr.headS7 true 125).wf {} = true ∧
    (Instr.maskFree ⟨1, 2, 3, 4⟩ 3 [5]).wf narrow = true ∧ (Instr.cmdReserved 7).wf {} = true := by decide
theorem test_meets_DecodeYieldsWellFormed :
    decode {} (.host (.reg { number := 10 })) = .ok (.regReserved 10 false) := by decide
theorem test_meets_DecodeKeepsWireBits : phaseBody.toNat ≤ 4 ∧
    decode {} (.step phaseBody [1, 2]) = .ok (.bodyrun [1, 2]) := by decide
theorem test_meets_StepSelection : (0x7D : Byte).toNat % 128 ≤ 125 ∧ (0x80 : Byte).toNat % 128 ≤ 125 ∧
    (0xFE : Byte).toNat % 128 = 126 ∧ (0x7F : Byte).toNat % 128 = 127 ∧
    5 ≤ (5 : BitVec 3).toNat ∧ 5 ≤ (7 : BitVec 3).toNat := by decide
theorem test_meets_CommandDecoding :
    (let din : List Byte := [9]; 1 = din.length ∧ din.length < 2 ^ narrow.cntW) ∧
    (0 : Nat) = ([] : List Byte).length ∧ 5 ≤ (5 : BitVec 3).toNat ∧ 5 ≤ (7 : BitVec 3).toNat := by decide

theorem test_suspended (p : ParserState) (rest : List Byte) (pt : EmitPoint) :
    Suspended (suspended p rest pt) := ⟨suspendedCtx rest pt, pt, rfl, rfl⟩

theorem test_meets_StepRunsDecodedInstruction :
    (idle.ctx = none ∧ idle.inbox = []) ∧
    ({ idle with inbox := [.rst] }.inbox = [.rst] ∧ decode {} (.host .rst) = .ok .reset) ∧
    (emitting pBody [1] .header).ctx = some (emittingCtx [1] .header) ∧
    (emitting pBody [1] (.body 1)).ctx = some (emittingCtx [1] (.body 1)) ∧
    (emitting pBody [1] (.frameEnd 1)).ctx = some (emittingCtx [1] (.frameEnd 1)) ∧
    (running pBody [3, 4, 5, 6]).ctx = some (runningCtx [3, 4, 5, 6]) ∧
    decode {} (.step pBody.phase ([3, 4, 5, 6].take (min pBody.remaining.toNat 4))) = .ok (.bodyrun [3, 4, 5]) ∧
    decode {} (.step pHead.phase ([5, 6].take 1)) = .ok (.headS7 false 5) ∧
    decode {} (.step 6 []) = .ok .badphase := by decide
theorem test_meets_LoopEndReturnsN : (running pBody []).ctx = some (runningCtx []) ∧
    (runningCtx []).wait = .running ∧ (runningCtx []).rest = [] := by decide

theorem test_meets_StartResult : Selects (running pOld [0xF1]) (runningCtx [0xF1]) phaseStart
    [b0Byte true 7 1] := by decide
theorem test_meets_HeadS7Result :
    Selects (running pHead [0xFD, 1]) (runningCtx [0xFD, 1]) phaseHead [b1Byte true 125] ∧
    Selects (running pHead [1]) (runningCtx [1]) phaseHead [b1Byte false 1] ∧
    Selects (running pHead [0]) (runningCtx [0]) phaseHead [b1Byte false 0] ∧
    (125 : BitVec 7).toNat ≤ 125 := by decide
theorem test_meets_HeadSentinelResult :
    Selects (running pHead [0xFE]) (runningCtx [0xFE]) phaseHead [b1Byte true 126] ∧
    Selects (running pHead [0x7F, 0]) (runningCtx [0x7F, 0]) phaseHead [b1Byte false 127] := by decide

/-- Length, with `remaining` bytes to come. -/
def pLength (mask : Bool) (length remaining : Word64) : ParserState :=
  { pHead with phase := phaseLength, hasMask := mask, length := length, remaining := remaining }

theorem test_meets_LenbResult :
    Selects (running (pLength false 0 8) [1]) (runningCtx [1]) phaseLength [1] ∧
    (pLength false 0 8).remaining ≠ 1 ∧ (pLength false 0 8).remaining.toNat ≤ 8 ∧
    Selects (running (pLength true 1 1) [0]) (runningCtx [0]) phaseLength [0] ∧
    ((pLength true 1 1).length <<< 8 ||| BitVec.ofNat 64 0 : Word64) ≠ 0 ∧
    ((pLength false 0 1).length <<< 8 ||| BitVec.ofNat 64 0 : Word64) = 0 := by decide
theorem test_meets_MaskbResult :
    Selects (running { pMask with remaining := 4 } [9]) (runningCtx [9]) phaseMask [9] ∧
    Selects (running { pMask with remaining := 3 } [9]) (runningCtx [9]) phaseMask [9] ∧
    Selects (running { pMask with remaining := 2 } [9]) (runningCtx [9]) phaseMask [9] ∧
    Selects (running pMask [9]) (runningCtx [9]) phaseMask [9] ∧ pMask.remaining = 1 ∧
    pMask.length ≠ 0 ∧ { pMask with length := 0 }.length = 0 := by decide
theorem test_meets_BodyrunResult :
    (Selects (running pBody [3, 4, 5, 6]) (runningCtx [3, 4, 5, 6]) phaseBody [3, 4, 5] ∧
      [3, 4, 5].length = min pBody.remaining.toNat 4) ∧
    (Selects (running pBody [3]) (runningCtx [3]) phaseBody [3] ∧
      [3].length = min pBody.remaining.toNat 1) := by decide
theorem test_meets_BadphaseResult :
    (running { p0 with phase := 5 } [1]).ctx = some (runningCtx [1]) ∧ 5 ≤ (5 : BitVec 3).toNat := by decide
theorem test_meets_UnselectedIsRefused :
    (∀ c ph bs, ¬ Selects State.reset c ph bs) ∧ 126 ≤ (126 : BitVec 7).toNat ∧
    (∀ c, State.reset.ctx = some c → c.wait ≠ .running ∨ c.rest = []) ∧ pBody.phase.toNat ≤ 4 ∧
    (∀ c, (running pBody [1]).ctx = some c → c.wait ≠ .emitting .header) := by
  refine ⟨fun c ph bs h => (by cases h.1), by decide, fun c h => (by cases h), by decide, ?_⟩
  rintro c h
  cases h
  decide
theorem test_meets_RequirementFailureIsRefused :
    Selects (running (pLength false 0 0) [1]) (runningCtx [1]) phaseLength [1] ∧
    Selects (running (pLength false 0 9) [1]) (runningCtx [1]) phaseLength [1] ∧
    Selects (running { pMask with remaining := 0 } [1]) (runningCtx [1]) phaseMask [1] ∧
    Selects (running { pMask with remaining := 5 } [1]) (runningCtx [1]) phaseMask [1] ∧
    Selects (running { pBody with remaining := 0 } [1]) (runningCtx [1]) phaseBody [1] ∧
    (Selects (running pBody [1, 2]) (runningCtx [1, 2]) phaseBody [1] ∧ pBody.remaining ≠ 0 ∧
      [1].length ≠ min pBody.remaining.toNat 2) := by decide

theorem test_meets_HeaderEventResult :
    (emitting pBody [1] .header).ctx = some (emittingCtx [1] .header) ∧
    (emitting pBody [1] .header).cbEn.getLsbD 0 = true := by decide
theorem test_meets_BodyEventResult :
    (emitting pBody [1] (.body 1)).ctx = some (emittingCtx [1] (.body 1)) ∧
    (emitting pBody [1] (.body 1)).cbEn.getLsbD 1 = true := by decide
theorem test_meets_EndEventResult :
    (emitting pBody [1] (.frameEnd 1)).ctx = some (emittingCtx [1] (.frameEnd 1)) ∧
    (emitting pBody [1] (.frameEnd 1)).cbEn.getLsbD 2 = true := by decide
theorem test_meets_DisabledEventIsContinue :
    { emitting pBody [1] (.body 1) with cbEn := 0b101 }.ctx =
      some { runningCtx [1] with wait := .emitting (.body 1) } ∧
    eventEnabled 0b101 (EmitPoint.body 1).kind = false ∧ eventEnabled 0b110 EmitPoint.header.kind = false ∧
    eventEnabled 0b011 (EmitPoint.frameEnd 1).kind = false ∧ EventState (emitting pBody [1] (.body 1)) := by
  decide
theorem test_meets_ContinueAfterHeader :
    SuspendedAt (suspended pFirst [1] .header) (suspendedCtx [1] .header) .header ∧ pFirst.length ≠ 0 ∧
    SuspendedAt (suspended pHead [0] .header) (suspendedCtx [0] .header) .header ∧ pHead.length = 0 ∧
    EventState (suspended pFirst [1] .header) ∧ EventState (suspended pHead [0] .header) := by decide
theorem test_meets_ContinueAfterBody :
    (SuspendedAt (suspended pBody [1] (.body 1)) (suspendedCtx [1] (.body 1)) (.body 1) ∧
      1 < pBody.remaining.toNat) ∧
    (SuspendedAt (suspended pBody [1, 2, 3] (.body 3)) (suspendedCtx [1, 2, 3] (.body 3)) (.body 3) ∧
      3 = pBody.remaining.toNat) ∧ EventState (suspended pBody [1] (.body 1)) ∧
    EventState (suspended pBody [1, 2, 3] (.body 3)) := by decide
theorem test_meets_ContinueAfterEnd :
    SuspendedAt (suspended pLast [1] (.frameEnd 1)) (suspendedCtx [1] (.frameEnd 1)) (.frameEnd 1) ∧
    EventState (suspended pLast [1] (.frameEnd 1)) := by decide
/-- R37, R127: at END a state fails WF in one way only; with the other clauses of WF broken, or at another event
than the rules put it, the state is unreachable and the answer and the masking operations are refused. -/
theorem test_eventState :
    wf pLast = false ∧ EventState (suspended pLast [1] (.frameEnd 1)) ∧
    ¬ EventState (suspended { pBody with remaining := 0 } [1] (.frameEnd 1)) ∧
    ¬ EventState (suspended { pMask with hasMask := false, length := 0, remaining := 0 } [1] .header) ∧
    ¬ EventState (suspended pBody [1] .header) := by decide
theorem test_suspended_unreachable :
    exec (.evtRsp false) (suspended { pBody with remaining := 0 } [1] (.frameEnd 1)) =
      .refused .unreachableState ∧
    exec (.maskBound [1]) (suspended { pBody with remaining := 0 } [1] (.frameEnd 1)) =
      .refused .unreachableState := ⟨rfl, rfl⟩
theorem test_meets_AbortResult :
    SuspendedAt (suspended pFirst [1] .header) (suspendedCtx [1] .header) .header ∧
    SuspendedAt (suspended pBody [1] (.body 1)) (suspendedCtx [1] (.body 1)) (.body 1) ∧
    SuspendedAt (suspended pLast [1, 2] (.frameEnd 2)) (suspendedCtx [1, 2] (.frameEnd 2)) (.frameEnd 2) ∧
    EventState (suspended pFirst [1] .header) ∧ EventState (suspended pBody [1] (.body 1)) ∧
    EventState (suspended pLast [1, 2] (.frameEnd 2)) := by decide

/-- One idle state for each column of rule R175: well formed, aborted, in error, invalid phase. -/
theorem test_meets_IdleInTable : IdleInTable idle ∧ IdleInTable { idle with aborted := true } ∧
    IdleInTable { idle with ps := { p0 with error := .unknownState } } ∧
    IdleInTable { idle with ps := { p0 with phase := 5 } } := by decide
theorem test_meets_InitResult : idle.ctx = none := rfl
theorem test_meets_SettingsResult : IdleInTable { idle with ps := pBody } := by decide
theorem test_meets_ExecuteResult : IdleInTable idle ∧ idle.aborted = false ∧
    ([] : List Byte) = [] ∧ ([0x81] : List Byte) ≠ [] := by decide
theorem test_meets_MaskFreeResult : IdleInTable idle ∧ Suspended (suspended pBody [1] (.body 1)) ∧
    EventState (suspended pBody [1] (.body 1)) := ⟨by decide, test_suspended _ _ _, by decide⟩
theorem test_meets_MaskBoundResult : Suspended (suspended pKeyed [1] (.body 1)) ∧
    (suspended pKeyed [1] (.body 1)).aborted = false ∧ EventState (suspended pKeyed [1] (.body 1)) ∧
    (idle.ctx = none ∧ idle.aborted = false ∧ pKeyed.error = .ok ∧ wfCore pKeyed = true) :=
  ⟨test_suspended _ _ _, rfl, by decide, by decide⟩
theorem test_meets_RegisterReads : idle.ctx = none ∧ idle.tagWritten = true := by decide
theorem test_meets_FreeReads : State.reset.ctx = none ∧ State.reset.tagWritten = false := by decide
theorem test_meets_TagWriteThenRead : idle.ctx = none ∨ Suspended idle := .inl rfl
theorem test_meets_ReservedIsRefused :
    { idle with inbox := [.reg { number := 9, write := true, wdata := 1 }] }.inbox =
      [.reg { number := 9, write := true, wdata := 1 }] ∧
    ((0 : BitVec 4).toNat ≤ 7 ∧ (7 : BitVec 4).toNat ≤ 7 ∧ (9 : BitVec 4).toNat = 9) := by decide
theorem test_meets_AdmissionTable : wf idle.ps = true ∧ Suspended (suspended pFirst [1] .header) ∧
    EventState (suspended pFirst [1] .header) ∧ (suspended pFirst [1] .header).aborted = false ∧
    Suspended { suspended pFirst [1] .header with aborted := true } ∧
    EventState { suspended pFirst [1] .header with aborted := true } ∧
    Suspended (suspended { pBody with bodyDelivered := 9 } [1] .header) ∧
    ¬ EventState (suspended { pBody with bodyDelivered := 9 } [1] .header) ∧
    { idle with aborted := true }.aborted = true ∧
    ({ p0 with error := .unknownState }.error = .unknownState ∧ 5 ≤ { p0 with phase := 5 }.phase.toNat) ∧
    (pLength false 0 0).error = .ok ∧ (pLength false 0 0).phase.toNat ≤ 4 ∧
    wf (pLength false 0 0) = false ∧ wfCore (pLength false 0 0) = false ∧
    wf { pHead with maskRotation := 3 } = false ∧ wfCore { pHead with maskRotation := 3 } = true :=
  ⟨by decide, test_suspended _ _ _, by decide, rfl, ⟨_, _, rfl, rfl⟩, by decide, test_suspended _ _ _,
    by decide, by decide⟩
theorem test_meets_AbortThenInitRecovers : (Suspended (suspended pBody [1] (.body 1)) ∧
    ∃ t, exec (.evtRsp true) (suspended pBody [1] (.body 1)) = .next t) ∧
    { idle with ps := pBody, aborted := true }.ctx = none ∧
    ∃ t, exec (.settings 5) { idle with ps := pBody, aborted := true } = .next t :=
  ⟨⟨test_suspended _ _ _, _, rfl⟩, rfl, _, rfl⟩
theorem test_meets_UnknownStateIsSticky : (running { p0 with phase := 5 } [1]).ctx = some (runningCtx [1]) ∧
    { idle with ps := { p0 with phase := 7 } }.ctx = none ∧
    { idle with ps := { p0 with phase := 7 } }.aborted = false ∧ 5 ≤ (7 : BitVec 3).toNat ∧
    psOf (exec (.execute []) { idle with ps := { p0 with phase := 7 } }) = some { p0 with phase := 7 } := by
  decide
theorem test_meets_MaskInvolution : [[0x49], [0x48, 0x48]].flatten =
    (maskParts ⟨1, 2, 3, 4⟩ 3 [[0x4D, 0x49], [], [0x4A]]).1 := by decide

theorem test_meets_MaskBoundSplit : ∃ s1 s2 u, exec (.maskBound [1]) idle = .next s1 ∧
    exec (.maskBound [2, 3]) s1 = .next s2 ∧ exec (.maskBound ([1] ++ [2, 3])) idle = .next u :=
  ⟨_, _, _, rfl, rfl, rfl⟩
theorem test_meets_RotationFollowsOffset :
    (SuspendedAt (suspended pKeyed [3, 4] (.body 2)) (suspendedCtx [3, 4] (.body 2)) (.body 2) ∧
      2 ≤ (suspendedCtx [3, 4] (.body 2)).rest.length ∧
      pKeyed.maskRotation.toNat = pKeyed.bodyDelivered.toNat % 4) ∧
    ∃ s1 t, exec (.maskBound ([3, 4].take 2)) (suspended pKeyed [3, 4] (.body 2)) = .next s1 ∧
      exec (.evtRsp false) s1 = .next t := ⟨by decide, _, _, rfl, rfl⟩

theorem test_meets_LengthIsExact : wfCore (pLength false 0x01020304050607 1) = true ∧
    ∃ t, exec (.lenb 8) (running (pLength false 0x01020304050607 1) [8]) = .next t := ⟨by decide, _, rfl⟩

/-- States that meet the invariant: idle, between steps, at events, suspended, aborted (AB8). -/
theorem test_meets_StepKeepsInvariant :
    ((running pBody [3, 4]).inv = true ∧ ∃ t, step (running pBody [3, 4]) = .next t) ∧
    (emitting { pBody with remaining := 5, bodyDelivered := 0 } [2] .header).inv = true ∧
    (emitting pHead [0] .header).inv = true ∧ (suspended pBody [3, 4] (.body 2)).inv = true ∧
    (suspended { pBody with remaining := 0, bodyDelivered := 5 } [5] (.frameEnd 1)).inv = true ∧
    { idle with aborted := true, ps := { pBody with remaining := 0, bodyDelivered := 5 } }.inv = true :=
  ⟨⟨by decide, _, rfl⟩, by decide, by decide, by decide, by decide, by decide⟩
theorem test_meets_StepKeepsCursor :
    (∀ c, (running pBody [3, 4]).ctx = some c → cursorOk c = true) ∧
    ∃ t, step (running pBody [3, 4]) = .next t := by
  refine ⟨?_, _, rfl⟩
  intro c h
  cases h
  decide
theorem test_meets_RotationClauseKept : wfRotation pHead = true ∧ (∀ src, Instr.headX16 true ≠ .maskBound src) ∧
    ∃ t, exec (.headX16 true) (running pHead [0xFE]) = .next t := ⟨by decide, by simp, _, rfl⟩
theorem test_meets_NoInvalidPhaseWritten : pHead.phase.toNat ≤ 4 ∧
    ∃ t, exec (.headX16 true) (running pHead [0xFE]) = .next t := ⟨by decide, _, rfl⟩
/-- Each row of the transition table that changes `phase`. -/
theorem test_meets_PhaseTransitions :
    psOf (exec .init { idle with ps := pBody }) ≠ some pBody ∧
    (psOf (exec (.start true 0 1) (running p0 [0x81]))).map (·.phase) = some phaseHead ∧
    (psOf (exec (.headS7 true 5) (running pHead [0x85]))).map (·.phase) = some phaseMask ∧
    (psOf (exec (.headX64 true) (running pHead [0xFF]))).map (·.phase) = some phaseLength ∧
    (psOf (exec (.lenb 0) (running (pLength false 1 1) [0]))).map (·.phase) = some phaseBody ∧
    (psOf (exec (.maskb 1) (running pMask [1]))).map (·.phase) = some phaseBody ∧
    (psOf (exec (.evtRsp false) (suspended pLast [1] (.frameEnd 1)))).map (·.phase) = some phaseStart ∧
    (psOf (exec .init { idle with ps := { p0 with phase := 5 } })).map (·.phase) = some phaseStart := by
  decide
/-- Each register is changed by some operation. -/
theorem test_meets_WritersOfEachRegister :
    (psOf (exec (.start true 0 1) (running pOld [0x81]))).map
      (fun p => (p.opcode, p.maskRotation, p.bodyDelivered)) = some (1, 0, 0) ∧
    (psOf (exec (.headX16 true) (running pHead [0xFE]))).map
      (fun p => (p.phase, p.hasMask, p.remaining)) = some (phaseLength, true, 2) ∧
    (psOf (exec (.headS7 true 5) (running pHead [0x85]))).map (·.length) = some 5 ∧
    (psOf (exec (.maskb 9) (running pMask [9]))).map (·.maskKey.k3) = some 9 ∧
    (psOf (exec (.evtRsp false) (suspended pBody [1] (.body 1)))).map (·.bodyDelivered) = some 3 ∧
    (psOf (exec .badphase (running { p0 with phase := 5 } [1]))).map (·.error) = some .unknownState ∧
    (psOf (exec (.tag 1) idle)).map (·.tag) = some 1 := by decide
theorem test_meets_OutputOnlyGrows : ∃ t, exec .readPhase idle = .next t := ⟨_, rfl⟩
/-- A silent block at an emission point, with one event sent before. -/
def silent : State :=
  { emitting pBody [1] (.body 1) with cbEn := 0, out := [.evt (evtRecord .header idle) []] }
theorem test_meets_NoEventWithoutEnable : silent.cbEn = 0 ∧ ∃ t, exec .body silent = .next t ∧
    OutRecord.evt (evtRecord .header idle) [] ∈ t.out := ⟨rfl, _, rfl, .head _⟩
/-- An EXECUTE that ends: at its last byte, and by an abort. -/
theorem test_meets_ShortCountExactlyOnFailure :
    (running p0 [0x81]).ctx = some (runningCtx [0x81]) ∧ cursorOk (runningCtx [0x81]) = true ∧
    ctxOf (exec (.start true 0 1) (running p0 [0x81])) = some none ∧
    cursorOk (suspendedCtx [1] (.body 1)) = true ∧
    ctxOf (exec (.evtRsp true) (suspended pBody [1] (.body 1))) = some none := by decide

theorem test_meets_ExecuteCompletes : idle.inv = true ∧ wf idle.ps = true ∧ idle.ctx = none ∧ idle.aborted = false ∧
    idle.inbox = [] ∧ ([0x82, 0x01, 0xAA] : List Byte).length < 2 ^ idle.params.cntW := by decide
theorem test_meets_ChunkBoundaryInvariance : { idle with ps := pBody }.inv = true ∧ wf pBody = true ∧
    { idle with ps := pBody }.ctx = none ∧ { idle with ps := pBody }.aborted = false ∧
    (([0x03] : List Byte) ++ [0x04, 0x05, 0x81]).length < 2 ^ idle.params.cntW := by decide
/-- A zero-length frame with all events, five driven steps after the first byte's. -/
theorem test_meets_EventsComeInFrames : idle.inv = true ∧ idle.ps.phase = phaseStart ∧ idle.cbEn = 7 ∧
    ∃ t o, RunsTo [0x81, 0x00] idle 6 t ∧ t.out = idle.out ++ o ∧ o.length = 3 :=
  ⟨by decide, rfl, rfl, _, _, ⟨_, rfl, rfl, rfl⟩, rfl, rfl⟩
/-- `aborted` set by the answer Abort, and cleared by INIT. -/
theorem test_meets_AbortedRefusesExecuteAndMaskBound :
    (∃ t, exec (.evtRsp true) (suspended pBody [1] (.body 1)) = .next t ∧ t.aborted = true) ∧
    (suspended pBody [1] (.body 1)).aborted = false ∧
    ∃ t, exec .init { idle with aborted := true } = .next t ∧ t.aborted = false :=
  ⟨⟨_, rfl, rfl⟩, rfl, _, rfl, rfl⟩
/-- A state well formed but for its rotation, and one that is not. -/
theorem test_meets_WfCoreIsWfUpToMaskBound : idle.ctx = none ∧ idle.aborted = false ∧
    wfCore { pHead with maskRotation := 3 } = true ∧ wf { pHead with maskRotation := 3 } = false ∧
    wfCore (pLength false 0 0) = false := by decide

end Sys2Proof.Tests
end

/-! The step a phase and a byte select (R95), with the fields of B0 and B1 as numbers (R81, R82). -/

namespace Sys2Proof.Encoding

open Sys2Proof Sys2Proof.Machine

/-! ### The fields of B0 and B1 as numbers (R81, R82) -/

/-- The top bit of a byte is what puts its value at 128 or above. -/
theorem getLsbD_seven_eq_decide (b : Byte) : b.getLsbD 7 = decide (128 ≤ b.toNat) :=
  b.msb_eq_decide

theorem b0Fin_eq_decide (b : Byte) : b0Fin b = decide (128 ≤ b.toNat) := getLsbD_seven_eq_decide b

theorem b0Rsv_eq_ofNat (b : Byte) : b0Rsv b = BitVec.ofNat 3 (b.toNat / 16) := by
  simp [b0Rsv, BitVec.toNat_eq, Nat.shiftRight_eq_div_pow]

theorem b0Opcode_eq_ofNat (b : Byte) : b0Opcode b = BitVec.ofNat 4 b.toNat := by
  simp [b0Opcode, BitVec.toNat_eq]

theorem b1Mask_eq_decide (b : Byte) : b1Mask b = decide (128 ≤ b.toNat) := getLsbD_seven_eq_decide b

theorem b1Len7_eq_ofNat (b : Byte) : b1Len7 b = BitVec.ofNat 7 b.toNat := by
  simp [b1Len7, BitVec.toNat_eq]

theorem b1Len7_toNat (b : Byte) : (b1Len7 b).toNat = b.toNat % 128 := by
  simp [b1Len7_eq_ofNat]

/-- The four bytes whose LEN7 is a sentinel, with either MASK (R95). -/
theorem len7_le_125_iff_not_sentinel (b : Byte) :
    b.toNat % 128 ≤ 125 ↔ b ≠ 0x7E ∧ b ≠ 0x7F ∧ b ≠ 0xFE ∧ b ≠ 0xFF := by
  have hb := b.isLt
  simp only [ne_eq, BitVec.toNat_eq, BitVec.reduceToNat]
  omega

/-! ### What LEN7 selects in Head (R95) -/

theorem decodeB1_eq_headS7 {b : Byte} (h : b.toNat % 128 ≤ 125) :
    decodeB1 b = .headS7 (b1Mask b) (b1Len7 b) := by
  have h126 : ¬ b.toNat % 128 = 126 := by omega
  have h127 : ¬ b.toNat % 128 = 127 := by omega
  rw [decodeB1, b1Len7_toNat, if_neg h126, if_neg h127]

theorem decodeB1_eq_headX16 {b : Byte} (h : b.toNat % 128 = 126) : decodeB1 b = .headX16 (b1Mask b) := by
  rw [decodeB1, b1Len7_toNat, if_pos h]

theorem decodeB1_eq_headX64 {b : Byte} (h : b.toNat % 128 = 127) : decodeB1 b = .headX64 (b1Mask b) := by
  have h126 : ¬ b.toNat % 128 = 126 := by omega
  rw [decodeB1, b1Len7_toNat, if_neg h126, if_pos h]

/-! ### What `phase` selects (R95) -/

theorem decode_phaseStart (P : Params) (b : Byte) :
    decode P (.step phaseStart [b]) = .ok (.start (b0Fin b) (b0Rsv b) (b0Opcode b)) := rfl

theorem decode_phaseHead (P : Params) (b : Byte) : decode P (.step phaseHead [b]) = .ok (decodeB1 b) := rfl

theorem decode_phaseLength (P : Params) (b : Byte) : decode P (.step phaseLength [b]) = .ok (.lenb b) := rfl

theorem decode_phaseMask (P : Params) (b : Byte) : decode P (.step phaseMask [b]) = .ok (.maskb b) := rfl

theorem decode_phaseBody (P : Params) (b : Byte) (p : List Byte) :
    decode P (.step phaseBody (b :: p)) = .ok (.bodyrun (b :: p)) := rfl

theorem decode_invalid_phase (P : Params) {phase : BitVec 3} (h : 5 ≤ phase.toNat) :
    decode P (.step phase []) = .ok .badphase := by
  rw [decode, decodeStep, if_pos h, decodeNoByte]

/-- Settles O4: the model's selection by `phase` and LEN7, with the fields of B0 and B1 read as numbers. -/
theorem stepSelection : Obligations.StepSelection := by
  unfold Obligations.StepSelection
  intro P b
  refine ⟨?start, ?headS7, ?headX16, ?headX64, len7_le_125_iff_not_sentinel b, decode_phaseLength P b,
    decode_phaseMask P b, decode_phaseBody P b, fun _ => decode_invalid_phase P⟩
  case start => rw [decode_phaseStart, b0Fin_eq_decide, b0Rsv_eq_ofNat, b0Opcode_eq_ofNat]
  case headS7 =>
    intro h
    rw [decode_phaseHead, decodeB1_eq_headS7 h, b1Mask_eq_decide, b1Len7_eq_ofNat]
  case headX16 =>
    intro h
    rw [decode_phaseHead, decodeB1_eq_headX16 h, b1Mask_eq_decide]
  case headX64 =>
    intro h
    rw [decode_phaseHead, decodeB1_eq_headX64 h, b1Mask_eq_decide]

end Sys2Proof.Encoding

/-! The parser steps that write ParserState and take one byte, with no emission point: START and the two
sentinels of HEAD (R116, R118, R119). -/

namespace Sys2Proof.ParserSteps

open Sys2Proof Sys2Proof.Machine

/-! ### A write of ParserState, then `Advance(k)` -/

theorem advance_withPs_sameHost (k : Nat) (c : ExecCtx) (s : State) (p : ParserState) :
    SameHost s (advance k c (s.withPs p)) := by simp [SameHost]

/-- The cursor and the output do not depend on ParserState. -/
theorem advance_withPs_advancedBy (k : Nat) (c : ExecCtx) (s : State) (p : ParserState) :
    AdvancedBy k c s (advance k c (s.withPs p)) := advance_advancedBy k c (s.withPs p)

/-- Whatever answers next with ParserState rewritten and the cursor advanced does just these two things. -/
theorem next_advance_withPs_spec {r : Result} {k : Nat} {c : ExecCtx} {s : State} {p : ParserState}
    (h : r = .next (advance k c (s.withPs p))) :
    ∃ t, r = .next t ∧ t.ps = p ∧ SameHost s t ∧ AdvancedBy k c s t :=
  ⟨_, h, by simp, advance_withPs_sameHost k c s p, advance_withPs_advancedBy k c s p⟩

/-! ### The steps where they are selected -/

section
variable {s : State} {c : ExecCtx}

/-- R116; RSV is in the byte that selects the step and nowhere in what it writes. -/
theorem exec_start_of {fin : Bool} {rsv : BitVec 3} {opcode : BitVec 4}
    (h : Selects s c phaseStart [b0Byte fin rsv opcode]) :
    exec (.start fin rsv opcode) s = .next (advance 1 c (s.withPs { s.ps with
      opcode := opcode, fin := fin, maskRotation := 0, bodyDelivered := 0, phase := phaseHead })) :=
  selected_of _ h

/-- R118. -/
theorem exec_headX16_of {mask : Bool} (h : Selects s c phaseHead [b1Byte mask 126]) :
    exec (.headX16 mask) s = .next (advance 1 c (s.withPs { s.ps with
      hasMask := mask, length := 0, remaining := 2, phase := phaseLength })) :=
  selected_of _ h

/-- R119. -/
theorem exec_headX64_of {mask : Bool} (h : Selects s c phaseHead [b1Byte mask 127]) :
    exec (.headX64 mask) s = .next (advance 1 c (s.withPs { s.ps with
      hasMask := mask, length := 0, remaining := 8, phase := phaseLength })) :=
  selected_of _ h

end

/-- Settles O9: START is one write of ParserState and one `Advance(1)`. -/
theorem startResult : Obligations.StartResult := by
  unfold Obligations.StartResult
  intro s c fin rsv opcode hsel
  exact next_advance_withPs_spec (exec_start_of hsel)

/-- Settles O11: each sentinel is one write of ParserState and one `Advance(1)`. -/
theorem headSentinelResult : Obligations.HeadSentinelResult := by
  unfold Obligations.HeadSentinelResult
  intro s c mask
  constructor
  case left =>
    intro hsel
    exact next_advance_withPs_spec (exec_headX16_of hsel)
  case right =>
    intro hsel
    exact next_advance_withPs_spec (exec_headX64_of hsel)

end Sys2Proof.ParserSteps

/-! Masking undoes itself (R155): in one call because XOR with the same key byte cancels, and in parts because
parts that carry the rotation are one call on their concatenation (R154). -/

namespace Sys2Proof.MaskTransform

open Sys2Proof Sys2Proof.Machine

/-! ### Parts and their concatenation -/

/-- Only the index modulo 4 selects the key byte (R151). -/
theorem keyByte_congr (key : Key) {i j : Nat} (h : i % 4 = j % 4) : keyByte key i = keyByte key j := by
  rw [keyByte_eq_keyAt, keyByte_eq_keyAt, h]

/-- The advanced rotation stands for the offset of the bytes masked before (R153). -/
theorem keyByte_add_nextRotation (key : Key) (rot : BitVec 2) (n i : Nat) :
    keyByte key (i + (nextRotation rot n).toNat) = keyByte key (i + n + rot.toNat) :=
  keyByte_congr key (by rw [nextRotation_toNat]; omega)

theorem maskBytes_append (key : Key) (rot : BitVec 2) (p q : List Byte) :
    maskBytes key rot (p ++ q) = maskBytes key rot p ++ maskBytes key (nextRotation rot p.length) q := by
  simp only [maskBytes, List.mapIdx_append, keyByte_add_nextRotation]

theorem maskParts_fst (key : Key) (rot : BitVec 2) (parts : List (List Byte)) :
    (maskParts key rot parts).1 = maskBytes key rot parts.flatten := by
  induction parts generalizing rot with
  | nil => rfl
  | cons p ps ih => rw [maskParts_cons, ih, List.flatten_cons, maskBytes_append]

/-! ### Masking twice -/

/-- Byte by byte both passes take the same key byte, and XOR with it twice is the identity. -/
theorem maskBytes_maskBytes (key : Key) (rot : BitVec 2) (p : List Byte) :
    maskBytes key rot (maskBytes key rot p) = p := by
  have hcancel (b k : Byte) : b ^^^ k ^^^ k = b := by rw [BitVec.xor_assoc, BitVec.xor_self, BitVec.xor_zero]
  apply List.ext_getElem
  case hl => simp
  case h =>
    intro i _ _
    simp only [maskBytes, List.getElem_mapIdx, hcancel]

/-- Settles O40: one call cancels byte by byte, and any cutting of either pass is one call on its concatenation. -/
theorem maskInvolution : Obligations.MaskInvolution := by
  unfold Obligations.MaskInvolution
  intro key rot
  refine ⟨maskBytes_maskBytes key rot, ?parts⟩
  case parts =>
    intro parts parts' hcut
    calc (maskParts key rot parts').1
      _ = maskBytes key rot parts'.flatten := maskParts_fst key rot parts'
      _ = maskBytes key rot (maskBytes key rot parts.flatten) := by rw [hcut, maskParts_fst]
      _ = parts.flatten := maskBytes_maskBytes key rot parts.flatten

end Sys2Proof.MaskTransform

/-! UnknownState (R123, R191): with an invalid phase every byte pending ends the EXECUTE at the cursor with the
error set, and an idle block stays so until INIT or reset. -/

namespace Sys2Proof.Exceptions

open Sys2Proof Sys2Proof.Machine

/-! ### What the outcome does -/

section
variable (c : ExecCtx) (s : State)

@[simp] theorem unknownState_ps : (unknownState c s).ps = { s.ps with error := .unknownState } := rfl

theorem unknownState_sameHost : SameHost s (unknownState c s) := by simp [SameHost, unknownState, stop]

/-- `Stop(0)` returns the cursor itself: BADPHASE takes no byte. -/
theorem unknownState_ended : EndedWith c.pos s (unknownState c s) :=
  finish_ended (c.pos + 0) (s.withPs { s.ps with error := .unknownState })

end

/-! ### When it is raised -/

section
variable {s : State}

theorem exec_badphase_of {c : ExecCtx} (hsel : Selects s c s.ps.phase []) (hrest : c.rest ≠ [])
    (hphase : 5 ≤ s.ps.phase.toNat) : exec .badphase s = .next (unknownState c s) := by
  have hguard : invalidPhase s.ps = true ∧ c.rest ≠ [] := ⟨decide_eq_true hphase, hrest⟩
  calc exec .badphase s
    _ = if invalidPhase s.ps = true ∧ c.rest ≠ [] then .next (unknownState c s) else .refused .notSelected :=
      selected_of _ hsel
    _ = .next (unknownState c s) := if_pos hguard

/-- With an invalid phase no byte is in front of the step (R95), so what is fetched decodes to BADPHASE. -/
theorem step_eq_exec_badphase {c : ExecCtx} (hc : s.ctx = some c) (hwait : c.wait = .running)
    (hrest : c.rest ≠ []) (hphase : 5 ≤ s.ps.phase.toNat) : step s = exec .badphase s := by
  have hfront : bytesInFront s.ps c.rest = [] := if_pos (decide_eq_true hphase)
  have hdecode : decode s.params (.step s.ps.phase (bytesInFront s.ps c.rest)) = .ok .badphase := by
    rw [hfront, Encoding.decode_invalid_phase s.params hphase]
  have hdrive : drive s = step s := by simp [drive, hc, hwait]
  rw [← hdrive, drive_running hc hwait hrest hdecode]

theorem step_running_invalidPhase {c : ExecCtx} (hc : s.ctx = some c) (hwait : c.wait = .running)
    (hrest : c.rest ≠ []) (hphase : 5 ≤ s.ps.phase.toNat) : step s = .next (unknownState c s) := by
  rw [step_eq_exec_badphase hc hwait hrest hphase]
  exact exec_badphase_of ⟨hc, hwait, rfl, List.nil_prefix⟩ hrest hphase

/-- A non-empty buffer, where the table of R175 admits EXECUTE, starts the loop of R111 at `pos` 0. -/
theorem exec_execute_cons (b : Byte) (p : List Byte) (htable : IdleInTable s) (habort : s.aborted = false) :
    exec (.execute (b :: p)) s = .next (s.withCtx (some
      { n := (b :: p).length, pos := 0, rest := b :: p, wait := .running })) :=
  admitted_of _ ((admits_inTable htable).2.2 habort)

end

/-! ### What leaves it -/

/-- Idle, the parser's steps, events and answers are not selected, and of the rest only INIT and reset write
`phase` or `error`. -/
theorem idle_effect_keeps_phase_error {s t : State} {i : Instr} (h : Effect s i t) (hidle : s.ctx = none)
    (hinit : i ≠ .init) (hreset : i ≠ .reset) : t.ps.phase = s.ps.phase ∧ t.ps.error = s.ps.error := by
  have hnoExecute (c : ExecCtx) : s.ctx ≠ some c := by simp [hidle]
  cases h with
  | start _ _ _ _ hsel | headS7 _ _ _ hsel | headX16 _ _ hsel | headX64 _ _ hsel | lenbLast _ _ hsel
  | lenb _ _ hsel | maskbLast _ _ hsel | maskb _ _ hsel | bodyrun _ _ hsel | badphase _ hsel
  | answerContinue _ _ hsel | answerAbort _ _ hsel => exact absurd hsel.1 (hnoExecute _)
  | emit _ _ hc => exact absurd hc (hnoExecute _)
  | init => exact absurd rfl hinit
  | reset => exact absurd rfl hreset
  | settings | executeEmpty | execute | maskBound | maskFree | read | readFree | tag => exact ⟨rfl, rfl⟩

/-- Settles O38: a byte pending selects BADPHASE, a new EXECUTE comes to the same step at 0, and no effect on an
idle block but that of INIT and reset writes `phase` or `error`. -/
theorem unknownStateIsSticky : Obligations.UnknownStateIsSticky := by
  unfold Obligations.UnknownStateIsSticky
  refine ⟨?running, ?fresh, ?idle⟩
  case running =>
    intro s c hc hwait hrest hphase
    exact ⟨_, step_running_invalidPhase hc hwait hrest hphase, unknownState_ps c s,
      unknownState_sameHost c s, unknownState_ended c s⟩
  case fresh =>
    intro s b p hidle habort hphase
    have htable : IdleInTable s := ⟨hidle, .inr (.inr (.inl hphase))⟩
    -- `withCtx` changes none of what these lemmas compare, so their claims about the started state are about `s`
    exact ⟨_, _, exec_execute_cons b p htable habort,
      step_running_invalidPhase rfl rfl (List.cons_ne_nil b p) hphase,
      unknownState_ended _ (s.withCtx _), unknownState_ps _ (s.withCtx _),
      unknownState_sameHost _ (s.withCtx _)⟩
  case idle =>
    intro s t i hidle _ hinit hreset hexec
    exact idle_effect_keeps_phase_error (exec_effect hexec) hidle hinit hreset

end Sys2Proof.Exceptions

/-! The encoder and the decoder undo each other (R80 to R96): on every well-formed instruction, and on every
parser step with one of the five phases. -/

namespace Sys2Proof.Encoding

open Sys2Proof Sys2Proof.Machine

/-- The five phases by name (R91). -/
theorem phase_cases {phase : BitVec 3} (h : phase.toNat ≤ 4) :
    phase = phaseStart ∨ phase = phaseHead ∨ phase = phaseLength ∨ phase = phaseMask ∨ phase = phaseBody := by
  revert phase; decide

/-! ### One decoder case per reserved or counted form -/

theorem decodeB1_b1Byte_126 (m : Bool) : decodeB1 (b1Byte m 126) = .headX16 m := by simp [decodeB1]

theorem decodeB1_b1Byte_127 (m : Bool) : decodeB1 (b1Byte m 127) = .headX64 m := by simp [decodeB1]

theorem decodeB1_b1Byte {l : BitVec 7} (m : Bool) (h : l.toNat ≤ 125) :
    decodeB1 (b1Byte m l) = .headS7 m l := by
  have h126 : l.toNat ≠ 126 := by omega
  have h127 : l.toNat ≠ 127 := by omega
  simp only [decodeB1, b1Len7_b1Byte, b1Mask_b1Byte, if_neg h126, if_neg h127]

/-- The codes 5 to 7 (R96). -/
theorem decodeCmd_reserved (P : Params) {c : CmdRecord} (din : List Byte) (h : 5 ≤ c.code.toNat) :
    decodeCmd P c din = .ok (.cmdReserved c.code) := by
  unfold decodeCmd
  split
  case h_6 => rfl
  all_goals omega

/-- The register numbers 10 to 15 (R96). -/
theorem decodeRead_reserved {number : BitVec 4} (h : 10 ≤ number.toNat) :
    decodeRead number = .regReserved number false := by
  unfold decodeRead
  split
  case h_11 => rfl
  all_goals omega

theorem decodeWrite_reserved {number : BitVec 4} (wdata : Word64) (h : 10 ≤ number.toNat) :
    decodeWrite number wdata = .ok (.regReserved number true) := by
  have h8 : number.toNat ≠ 8 := by omega
  rw [decodeWrite, if_neg h8, if_pos h]

/-- A record that announces its own bytes is accepted when they fit the count (R50, R58). -/
theorem dinOk_of_countOk {P : Params} {c : CmdRecord} {din : List Byte} (hn : c.n = din.length)
    (h : countOk P din = true) : dinOk P c din = true := by simp [dinOk, hn, h]

/-! ### Decode after encode -/

/-- Settles O1: the byte of a parser step gives its fields back, a counted record announces its own bytes, and the
reserved codes fall to the decoder's last case. -/
theorem decodeEncodeRoundTrip : Obligations.DecodeEncodeRoundTrip := by
  unfold Obligations.DecodeEncodeRoundTrip
  intro P i hwf
  cases i with
  | start f r o =>
    rw [encode, decode_phaseStart, b0Fin_b0Byte, b0Rsv_b0Byte, b0Opcode_b0Byte]
  | headS7 m l =>
    have hl : l.toNat ≤ 125 := by simpa [Instr.wf, len7Ok] using hwf
    rw [encode, decode_phaseHead, decodeB1_b1Byte m hl]
  | headX16 m => rw [encode, decode_phaseHead, decodeB1_b1Byte_126]
  | headX64 m => rw [encode, decode_phaseHead, decodeB1_b1Byte_127]
  | bodyrun p =>
    cases p with
    | nil => simp [Instr.wf] at hwf
    | cons b p => exact decode_phaseBody P b p
  | execute buf | maskBound src =>
    simp only [encode, decode, decodeHost, decodeCmd]
    exact if_pos (dinOk_of_countOk rfl hwf)
  | maskFree k r src =>
    simp only [encode, decode, decodeHost, decodeCmd, keyOfWord_keyWord]
    exact if_pos (dinOk_of_countOk rfl hwf)
  | cmdReserved code =>
    have hc : 5 ≤ code.toNat := by simpa [Instr.wf] using hwf
    exact decodeCmd_reserved P [] hc
  | regReserved number write =>
    have hn : 10 ≤ number.toNat := by simpa [Instr.wf] using hwf
    cases write with
    | false => exact congrArg Except.ok (decodeRead_reserved hn)
    | true => exact decodeWrite_reserved 0 hn
  | evtRsp a => cases a <;> rfl
  | lenb | maskb | badphase | init | settings | header | body | frameEnd | evtReserved | readPhase
  | readFlags | readLength | readRemaining | readMaskKey | readMaskRot | readBodyDelivered | readError
  | readTag | readCbEn | tag | reset => rfl

/-! ### What the decoder accepts -/

section
variable {P : Params}

theorem decodeB1_wf (b : Byte) : (decodeB1 b).wf P = true := by
  unfold decodeB1
  split
  · rfl
  · split
    · rfl
    · have := (b1Len7 b).isLt
      exact decide_eq_true (by omega)

theorem decodeByte_wf (phase : BitVec 3) (b : Byte) : (decodeByte phase b).wf P = true := by
  unfold decodeByte
  split
  case h_2 => exact decodeB1_wf b
  all_goals rfl

theorem decodeStep_wf {phase : BitVec 3} {bytes : List Byte} {i : Instr}
    (h : decodeStep phase bytes = .ok i) : i.wf P = true := by
  unfold decodeStep at h
  split at h
  case isTrue =>
    cases bytes <;> cases h
    rfl
  case isFalse =>
    split at h
    case isTrue =>
      cases bytes <;> cases h
      rfl
    case isFalse =>
      match bytes, h with
      | [b], h => cases h; exact decodeByte_wf phase b

theorem decodeEvent_wf (kind : BitVec 2) : (decodeEvent kind).wf P = true := by
  unfold decodeEvent
  split <;> rfl

theorem decodeCmd_wf {c : CmdRecord} {din : List Byte} {i : Instr} (h : decodeCmd P c din = .ok i) :
    i.wf P = true := by
  have counted {j : Instr} (hj : j.wf P = countOk P din)
      (h : (if dinOk P c din then Except.ok j else .error DecodeError.dinCount) = .ok i) : i.wf P = true := by
    split at h
    case isTrue hd =>
      cases h
      simp only [dinOk, Bool.and_eq_true] at hd
      rw [hj, hd.2]
    case isFalse => cases h
  unfold decodeCmd at h
  split at h
  case h_1 | h_2 => cases h; rfl
  case h_3 | h_4 | h_5 => exact counted rfl h
  case h_6 =>
    cases h
    have hcode : 5 ≤ c.code.toNat := by grind
    exact decide_eq_true hcode

theorem decodeRead_wf (number : BitVec 4) : (decodeRead number).wf P = true := by
  unfold decodeRead
  split
  case h_11 =>
    have hnumber : 10 ≤ number.toNat := by grind
    exact decide_eq_true hnumber
  all_goals rfl

theorem decodeWrite_wf {number : BitVec 4} {wdata : Word64} {i : Instr}
    (h : decodeWrite number wdata = .ok i) : i.wf P = true := by
  unfold decodeWrite at h
  split at h
  case isTrue => cases h; rfl
  case isFalse =>
    split at h
    case isTrue hn => cases h; exact decide_eq_true hn
    case isFalse => cases h

theorem decodeHost_wf {r : HostRecord} {i : Instr} (h : decodeHost P r = .ok i) : i.wf P = true := by
  cases r with
  | rst => cases h; rfl
  | cmd c din => exact decodeCmd_wf h
  | evtRsp a => cases h; rfl
  | reg r =>
    simp only [decodeHost] at h
    split at h
    case isTrue => exact decodeWrite_wf h
    case isFalse => cases h; exact decodeRead_wf r.number

end

/-- Settles O2: each of the decoder's tables checks the ranges `Instr.wf` asks for. -/
theorem decodeYieldsWellFormed : Obligations.DecodeYieldsWellFormed := by
  unfold Obligations.DecodeYieldsWellFormed
  intro P e i h
  cases e with
  | step phase bytes => exact decodeStep_wf h
  | event kind => cases h; exact decodeEvent_wf kind
  | host r => exact decodeHost_wf h

/-! ### Encode after decode -/

theorem encode_decodeB1 (b : Byte) : encode (decodeB1 b) = .step phaseHead [b] := by
  unfold decodeB1
  split
  case isTrue h =>
    have hl : (126 : BitVec 7) = b1Len7 b := BitVec.eq_of_toNat_eq h.symm
    rw [encode, hl, b1Byte_fields]
  case isFalse =>
    split
    case isTrue h =>
      have hl : (127 : BitVec 7) = b1Len7 b := BitVec.eq_of_toNat_eq h.symm
      rw [encode, hl, b1Byte_fields]
    case isFalse => rw [encode, b1Byte_fields]

/-- With one of the five phases the decoder accepts the run in Body and one byte elsewhere (R95). -/
theorem decodeStep_cases {phase : BitVec 3} {bytes : List Byte} {i : Instr} (hphase : phase.toNat ≤ 4)
    (h : decodeStep phase bytes = .ok i) :
    phase = phaseBody ∧ i = .bodyrun bytes ∨ phase ≠ phaseBody ∧ ∃ b, bytes = [b] ∧ i = decodeByte phase b := by
  have hvalid : ¬ 5 ≤ phase.toNat := by omega
  rw [decodeStep, if_neg hvalid] at h
  split at h
  case isTrue hbody =>
    cases bytes <;> cases h
    exact .inl ⟨hbody, rfl⟩
  case isFalse hheader =>
    match bytes, h with
    | [b], h => cases h; exact .inr ⟨hheader, b, rfl, rfl⟩

theorem encode_decodeByte {phase : BitVec 3} (b : Byte) (hphase : phase.toNat ≤ 3) :
    encode (decodeByte phase b) = .step phase [b] := by
  rcases phase_cases (show phase.toNat ≤ 4 by omega) with rfl | rfl | rfl | rfl | rfl
  · exact congrArg (fun b => Encoded.step phaseStart [b]) (b0Byte_fields b)
  · exact encode_decodeB1 b
  · rfl
  · rfl
  · exact absurd hphase (by decide)

/-- Settles O3: the instruction's fields put together again are the byte, and a run is its own encoding. -/
theorem decodeKeepsWireBits : Obligations.DecodeKeepsWireBits := by
  unfold Obligations.DecodeKeepsWireBits
  intro P phase bytes i hphase h
  obtain ⟨rfl, rfl⟩ | ⟨hheader, b, rfl, rfl⟩ := decodeStep_cases hphase h
  · rfl
  · exact encode_decodeByte b (by bv_omega)

/-! ### Words and commands (R94) -/

/-- Settles O5: each word is a closed term, and the decoder computes. -/
theorem specWordsDecode : Obligations.SpecWordsDecode := by
  unfold Obligations.SpecWordsDecode
  decide

/-- The four bytes of the 32-bit key operand, first byte on top (R94). -/
theorem keyOfWord_eq_ofNat (w : BitVec 32) : keyOfWord w =
    ⟨BitVec.ofNat 8 (w.toNat / 2 ^ 24), BitVec.ofNat 8 (w.toNat / 2 ^ 16),
     BitVec.ofNat 8 (w.toNat / 2 ^ 8), BitVec.ofNat 8 w.toNat⟩ := by
  simp [keyOfWord, BitVec.toNat_eq, Nat.shiftRight_eq_div_pow]

/-- Settles O6: the table of R94 by code, with the count checked where bytes are announced. -/
theorem commandDecoding : Obligations.CommandDecoding := by
  unfold Obligations.CommandDecoding
  intro P c din hn hlt
  have hdin : dinOk P c din = true := dinOk_of_countOk hn (decide_eq_true hlt)
  refine ⟨?_, ?_, ?_, ?_, ?_, decodeCmd_reserved P din⟩ <;> intro hcode
  case refine_5 => simp [decode, decodeHost, decodeCmd, hcode, hdin, keyOfWord_eq_ofNat]
  all_goals simp [decode, decodeHost, decodeCmd, hcode, hdin]

end Sys2Proof.Encoding

/-! What each register can be written by (R20 to R35), and the rows of the transition table (R126). -/

namespace Sys2Proof.Writers

open Sys2Proof Sys2Proof.Machine

/-! ### The phase (R126) -/

/-- PostMask changes the phase to Body only. -/
theorem postMask_phase {c : ExecCtx} {s : State} (h : (postMask c s).ps.phase ≠ s.ps.phase) :
    (postMask c s).ps.phase = phaseBody := by
  rw [postMask_ps] at h ⊢
  split at h
  · exact absurd rfl h
  · rw [if_neg ‹_›]

/-- PostLength changes the phase to Mask of a masked frame and to Body of an unmasked one. -/
theorem postLength_phase {c : ExecCtx} {s : State} (h : (postLength c s).ps.phase ≠ s.ps.phase) :
    (postLength c s).ps.phase = if s.ps.hasMask then phaseMask else phaseBody := by
  split
  case isTrue hm => rw [postLength_masked c hm, advance_ps]; rfl
  case isFalse hm =>
    rw [postLength_unmasked c (by simpa using hm)] at h ⊢
    exact postMask_phase h

/-- Continue writes the phase after END only. -/
theorem continueFrom_phase {p : EmitPoint} {c : ExecCtx} {s : State}
    (h : (continueFrom p c s).ps.phase ≠ s.ps.phase) :
    (∃ k, p = .frameEnd k) ∧ (continueFrom p c s).ps.phase = phaseStart := by
  rw [continueFrom_ps] at h ⊢
  cases p with
  | header | body k => exact absurd rfl h
  | frameEnd k => exact ⟨⟨k, rfl⟩, rfl⟩

theorem emit_phase {p : EmitPoint} {c : ExecCtx} {s : State} (h : (emit p c s).ps.phase ≠ s.ps.phase) :
    (∃ k, p = .frameEnd k) ∧ (emit p c s).ps.phase = phaseStart := by
  rw [emit_ps] at h ⊢
  split at h
  · exact absurd rfl h
  · rw [if_neg ‹_›]
    exact continueFrom_phase h

/-- The rows that leave one of the five phases. -/
theorem effect_phase_of_valid {s t : State} {i : Instr} (h : Effect s i t)
    (hne : t.ps.phase ≠ s.ps.phase) (hphase : s.ps.phase.toNat ≤ 4) :
      (i = .init ∨ i = .reset) ∧ t.ps.phase = phaseStart ∨
      (∃ f r o, i = .start f r o) ∧ s.ps.phase = phaseStart ∧ t.ps.phase = phaseHead ∨
      (∃ m l, i = .headS7 m l ∧ t.ps.phase = if m then phaseMask else phaseBody) ∧
        s.ps.phase = phaseHead ∨
      (∃ m, i = .headX16 m ∨ i = .headX64 m) ∧ s.ps.phase = phaseHead ∧ t.ps.phase = phaseLength ∨
      (∃ e, i = .lenb e) ∧ s.ps.phase = phaseLength ∧ s.ps.remaining = 1 ∧
        (t.ps.phase = if s.ps.hasMask then phaseMask else phaseBody) ∨
      (∃ k, i = .maskb k) ∧ s.ps.phase = phaseMask ∧ s.ps.remaining = 1 ∧ t.ps.phase = phaseBody ∨
      (i = .frameEnd ∨ i = .evtRsp false ∧ ∃ c k, SuspendedAt s c (.frameEnd k)) ∧
        1 ≤ s.ps.phase.toNat ∧ s.ps.phase.toNat ≤ 4 ∧ t.ps.phase = phaseStart := by
  -- a move to Start that changes the phase comes from one of the other four
  have leaves (ht : t.ps.phase = phaseStart) : 1 ≤ s.ps.phase.toNat := by
    rw [ht] at hne
    bv_omega
  cases h with
  | start c f r o hsel => exact .inr (.inl ⟨⟨f, r, o, rfl⟩, hsel.2.2.1, by simp⟩)
  | headS7 c m l hsel hl =>
    have hp : s.ps.phase = phaseHead := hsel.2.2.1
    exact .inr (.inr (.inl ⟨⟨m, l, rfl, postLength_phase hne⟩, hp⟩))
  | headX16 c m hsel => exact .inr (.inr (.inr (.inl ⟨⟨m, .inl rfl⟩, hsel.2.2.1, by simp⟩)))
  | headX64 c m hsel => exact .inr (.inr (.inr (.inl ⟨⟨m, .inr rfl⟩, hsel.2.2.1, by simp⟩)))
  | lenbLast c e hsel hlast =>
    exact .inr (.inr (.inr (.inr (.inl ⟨⟨e, rfl⟩, hsel.2.2.1, hlast, postLength_phase hne⟩))))
  | maskbLast c k hsel hlast =>
    exact .inr (.inr (.inr (.inr (.inr (.inl ⟨⟨k, rfl⟩, hsel.2.2.1, hlast, postMask_phase hne⟩)))))
  | emit c p hc hw =>
    obtain ⟨⟨k, rfl⟩, ht⟩ := emit_phase hne
    exact .inr (.inr (.inr (.inr (.inr (.inr ⟨.inl rfl, leaves ht, hphase, ht⟩)))))
  | answerContinue c p hs =>
    obtain ⟨⟨k, rfl⟩, ht⟩ := continueFrom_phase hne
    exact .inr (.inr (.inr (.inr (.inr (.inr ⟨.inr ⟨rfl, c, k, hs⟩, leaves ht, hphase, ht⟩)))))
  | init => exact .inl ⟨.inl rfl, rfl⟩
  | reset => exact .inl ⟨.inr rfl, rfl⟩
  | lenb | maskb => exact absurd (by simp) hne
  | bodyrun | badphase | settings | executeEmpty | execute | maskBound | maskFree | answerAbort | read
  | readFree | tag => exact absurd rfl hne

/-- The steps of a phase need that phase, so only INIT, reset and END leave an invalid one. -/
theorem effect_phase_of_invalid {s t : State} {i : Instr} (h : Effect s i t)
    (hne : t.ps.phase ≠ s.ps.phase) (hphase : 5 ≤ s.ps.phase.toNat) : t.ps.phase = phaseStart ∧
      (i = .init ∨ i = .reset ∨ i = .frameEnd ∨ i = .evtRsp false ∧ ∃ c k, SuspendedAt s c (.frameEnd k)) := by
  have hno {ph : BitVec 3} (hp : s.ps.phase = ph) (hlt : ph.toNat ≤ 4) : False := by
    rw [hp] at hphase
    omega
  cases h with
  | start _ _ _ _ hsel | headS7 _ _ _ hsel | headX16 _ _ hsel | headX64 _ _ hsel | lenbLast _ _ hsel
  | maskbLast _ _ hsel => exact (hno hsel.2.2.1 (by decide)).elim
  | emit c p hc hw =>
    obtain ⟨⟨k, rfl⟩, ht⟩ := emit_phase hne
    exact ⟨ht, .inr (.inr (.inl rfl))⟩
  | answerContinue c p hs =>
    obtain ⟨⟨k, rfl⟩, ht⟩ := continueFrom_phase hne
    exact ⟨ht, .inr (.inr (.inr ⟨rfl, c, k, hs⟩))⟩
  | init => exact ⟨rfl, .inl rfl⟩
  | reset => exact ⟨rfl, .inr (.inl rfl)⟩
  | lenb | maskb => exact absurd (by simp) hne
  | bodyrun | badphase | settings | executeEmpty | execute | maskBound | maskFree | answerAbort | read
  | readFree | tag => exact absurd rfl hne

/-- Settles O51: the rows of R126, one effect at a time. -/
theorem phaseTransitions : Obligations.PhaseTransitions := by
  unfold Obligations.PhaseTransitions
  intro s t i hexec hne
  exact ⟨effect_phase_of_valid (exec_effect hexec) hne, effect_phase_of_invalid (exec_effect hexec) hne⟩

/-- Every target of the transition table is one of the five phases. -/
theorem effect_phase_valid {s t : State} {i : Instr} (h : Effect s i t) (hphase : s.ps.phase.toNat ≤ 4) :
    t.ps.phase.toNat ≤ 4 := by
  by_cases hne : t.ps.phase = s.ps.phase
  · rwa [hne]
  · have hb (b : Bool) : (if b then phaseMask else phaseBody).toNat ≤ 4 := by cases b <;> decide
    rcases effect_phase_of_valid h hne hphase with ⟨_, ht⟩ | ⟨_, _, ht⟩ | ⟨⟨_, _, _, ht⟩, _⟩ | ⟨_, _, ht⟩ |
      ⟨_, _, _, ht⟩ | ⟨_, _, _, ht⟩ | ⟨_, _, _, ht⟩ <;> rw [ht]
    case inr.inr.inl | inr.inr.inr.inr.inl => exact hb _
    all_goals decide

/-- Settles O50: the transition table has no other targets. -/
theorem noInvalidPhaseWritten : Obligations.NoInvalidPhaseWritten := by
  unfold Obligations.NoInvalidPhaseWritten
  intro s t i hphase hexec
  exact effect_phase_valid (exec_effect hexec) hphase

/-! ### Every register -/

theorem sameHost_trans {s t u : State} (h : SameHost s t) (h' : SameHost t u) : SameHost s u := by
  obtain ⟨hcb, hab, htw, hin, hpar⟩ := h
  obtain ⟨hcb', hab', htw', hin', hpar'⟩ := h'
  exact ⟨hcb'.trans hcb, hab'.trans hab, htw'.trans htw, hin'.trans hin, hpar'.trans hpar⟩

theorem sameHost_symm {s t : State} (h : SameHost s t) : SameHost t s := by
  obtain ⟨hcb, hab, htw, hin, hpar⟩ := h
  exact ⟨hcb.symm, hab.symm, htw.symm, hin.symm, hpar.symm⟩

@[simp] theorem postMask_keeps (c : ExecCtx) (s : State) :
    (postMask c s).ps.opcode = s.ps.opcode ∧ (postMask c s).ps.fin = s.ps.fin ∧
    (postMask c s).ps.hasMask = s.ps.hasMask ∧ (postMask c s).ps.length = s.ps.length ∧
    (postMask c s).ps.maskKey = s.ps.maskKey ∧ (postMask c s).ps.maskRotation = s.ps.maskRotation ∧
    (postMask c s).ps.bodyDelivered = s.ps.bodyDelivered ∧ (postMask c s).ps.error = s.ps.error ∧
    (postMask c s).ps.tag = s.ps.tag := by
  rw [postMask_ps]
  split <;> simp

@[simp] theorem postLength_keeps (c : ExecCtx) (s : State) :
    (postLength c s).ps.opcode = s.ps.opcode ∧ (postLength c s).ps.fin = s.ps.fin ∧
    (postLength c s).ps.hasMask = s.ps.hasMask ∧ (postLength c s).ps.length = s.ps.length ∧
    (postLength c s).ps.maskKey = s.ps.maskKey ∧ (postLength c s).ps.maskRotation = s.ps.maskRotation ∧
    (postLength c s).ps.bodyDelivered = s.ps.bodyDelivered ∧ (postLength c s).ps.error = s.ps.error ∧
    (postLength c s).ps.tag = s.ps.tag := by
  unfold postLength
  split
  · simp
  · exact postMask_keeps c s

/-- Continue writes the two counters after BODY, and `phase`, `length` and `remaining` after END. -/
@[simp] theorem continueFrom_keeps (p : EmitPoint) (c : ExecCtx) (s : State) :
    (continueFrom p c s).ps.opcode = s.ps.opcode ∧ (continueFrom p c s).ps.fin = s.ps.fin ∧
    (continueFrom p c s).ps.hasMask = s.ps.hasMask ∧ (continueFrom p c s).ps.maskKey = s.ps.maskKey ∧
    (continueFrom p c s).ps.maskRotation = s.ps.maskRotation ∧
    (continueFrom p c s).ps.error = s.ps.error ∧ (continueFrom p c s).ps.tag = s.ps.tag := by
  rw [continueFrom_ps]
  cases p <;> simp [enterStart]

theorem emit_ps_cases (p : EmitPoint) (c : ExecCtx) (s : State) :
    (emit p c s).ps = s.ps ∨ (emit p c s).ps = (continueFrom p c s).ps := by
  rw [emit_ps]
  split <;> simp

theorem emit_sameHost (p : EmitPoint) (c : ExecCtx) (s : State) : SameHost s (emit p c s) := by
  unfold emit
  split <;> simp [SameHost]

@[simp] theorem callbackAbort_ps (p : EmitPoint) (c : ExecCtx) (s : State) :
    (callbackAbort p c s).ps = s.ps := rfl

/-- An abort sets `aborted`, and what it leaves alone. -/
@[simp] theorem callbackAbort_host (p : EmitPoint) (c : ExecCtx) (s : State) :
    (callbackAbort p c s).aborted = true ∧ (callbackAbort p c s).cbEn = s.cbEn ∧
    (callbackAbort p c s).tagWritten = s.tagWritten ∧ (callbackAbort p c s).inbox = s.inbox ∧
    (callbackAbort p c s).params = s.params := ⟨rfl, rfl, rfl, rfl, rfl⟩

/-- Settles O52: one effect at a time, what it writes is among the writers named, and the rest is as before. -/
theorem writersOfEachRegister : Obligations.WritersOfEachRegister := by
  unfold Obligations.WritersOfEachRegister
  intro s t i hexec hinit hreset
  cases exec_effect hexec with
  | init => exact absurd rfl hinit
  | reset => exact absurd rfl hreset
  | start | headX16 | headX64 | lenb | maskb | bodyrun | settings | executeEmpty | execute | maskBound
  | maskFree | answerAbort | read | readFree | tag => simp
  | badphase => simp [unknownState, stop]
  | headS7 | lenbLast => simp [postLength_sameHost]
  | maskbLast => simp [postMask_sameHost]
  | answerContinue c p => cases p <;> simp [continueFrom_ps, enterStart]
  | emit c p =>
    rcases emit_ps_cases p c s with hps | hps <;> rw [hps]
    case inl => simp [emit_sameHost]
    case inr => cases p <;> simp [emit_sameHost, continueFrom_ps, enterStart, EmitPoint.instr]

/-! ### What follows from the writers -/

/-- INIT and reset give every field but `tag` its initial value (R40). -/
theorem exec_init_or_reset {s t : State} {i : Instr} (hi : i = .init ∨ i = .reset) (h : exec i s = .next t) :
    (∃ tag, t.ps = ParserState.initial tag) ∧ t.aborted = false ∧ t.ctx = none ∧ t.params = s.params ∧
    t.inbox = s.inbox := by
  rcases hi with rfl | rfl
  · obtain ⟨ha, ht⟩ := admitted_next (show execInit s = .next t from h)
    cases ht
    have hidle := admits_idle ha (.inl rfl)
    exact ⟨⟨_, rfl⟩, rfl, hidle, rfl, rfl⟩
  · cases h
    exact ⟨⟨_, rfl⟩, rfl, rfl, rfl, rfl⟩

section
variable {s t : State} {i : Instr}

theorem exec_keeps_params_inbox (h : exec i s = .next t) : t.params = s.params ∧ t.inbox = s.inbox := by
  by_cases hi : i = .init ∨ i = .reset
  · exact (exec_init_or_reset hi h).2.2.2
  · rw [not_or] at hi
    obtain ⟨_, _, _, _, _, _, _, _, _, _, _, _, hkeeps⟩ := writersOfEachRegister s t i h hi.1 hi.2
    exact hkeeps

variable (h : exec i s = .next t) (hi : ¬ (i = .init ∨ i = .reset))
include h hi

theorem rotation_writers (hne : t.ps.maskRotation ≠ s.ps.maskRotation) :
    (∃ f r o, i = .start f r o) ∨ ∃ p, i = .maskBound p := by
  rw [not_or] at hi
  obtain ⟨_, _, _, _, _, _, hwriters, _⟩ := writersOfEachRegister s t i h hi.1 hi.2
  exact hwriters hne

theorem error_writer (hne : t.ps.error ≠ s.ps.error) : i = .badphase := by
  rw [not_or] at hi
  obtain ⟨_, _, _, _, _, _, _, _, hwriter, _⟩ := writersOfEachRegister s t i h hi.1 hi.2
  exact hwriter hne

theorem tag_writer (hne : t.ps.tag ≠ s.ps.tag) : ∃ v, i = .tag v := by
  rw [not_or] at hi
  obtain ⟨_, _, _, _, _, _, _, _, _, hwriter, _⟩ := writersOfEachRegister s t i h hi.1 hi.2
  exact hwriter hne

theorem aborted_writer (hne : t.aborted ≠ s.aborted) : i = .evtRsp true := by
  rw [not_or] at hi
  obtain ⟨_, _, _, _, _, _, _, _, _, _, _, hwriter, _⟩ := writersOfEachRegister s t i h hi.1 hi.2
  exact hwriter hne

end

theorem exec_start_rotation {s t : State} {f : Bool} {r : BitVec 3} {o : BitVec 4}
    (h : exec (.start f r o) s = .next t) : t.ps.maskRotation = 0 := by
  obtain ⟨c, _, ht⟩ := selected_next (show execStart f r o s = .next t from h)
  cases ht
  simp

theorem wfRotation_of_zero {p : ParserState} (h : p.maskRotation = 0) : wfRotation p = true :=
  decide_eq_true fun _ => h

/-- Of the phases in which the rotation must be 0, Head is entered by START only, and Length and Mask from one of
the three. -/
theorem exec_rotation_phases {s t : State} {i : Instr} (h : exec i s = .next t)
    (ht : t.ps.phase = phaseHead ∨ t.ps.phase = phaseLength ∨ t.ps.phase = phaseMask) :
    (∃ f r o, i = .start f r o) ∨
    (s.ps.phase = phaseHead ∨ s.ps.phase = phaseLength ∨ s.ps.phase = phaseMask) := by
  have hno {ph : BitVec 3} (hph : ph = phaseStart ∨ ph = phaseBody) (hp : t.ps.phase = ph) : False := by
    rw [hp] at ht
    rcases hph with rfl | rfl <;> revert ht <;> decide
  by_cases hne : t.ps.phase = s.ps.phase
  case pos => exact .inr (hne ▸ ht)
  obtain ⟨hvalid, hinvalid⟩ := phaseTransitions s t i h hne
  by_cases h5 : 5 ≤ s.ps.phase.toNat
  case pos => exact (hno (.inl rfl) (hinvalid h5).1).elim
  rcases hvalid (by omega) with ⟨_, hp⟩ | ⟨hs, _⟩ | ⟨_, hs⟩ | ⟨_, hs, _⟩ | ⟨_, hs, _⟩ | ⟨_, _, _, hp⟩ |
    ⟨_, _, _, hp⟩
  · exact (hno (.inl rfl) hp).elim
  · exact .inl hs
  · exact .inr (.inl hs)
  · exact .inr (.inl hs)
  · exact .inr (.inr (.inl hs))
  · exact (hno (.inr rfl) hp).elim
  · exact (hno (.inl rfl) hp).elim

/-- Settles O48: START, INIT and reset clear the rotation, nothing else but MASK_BOUND writes it, and only START
enters the phases in question from outside them. -/
theorem rotationClauseKept : Obligations.RotationClauseKept := by
  unfold Obligations.RotationClauseKept
  intro s t i hrot hbound hexec
  by_cases hi : i = .init ∨ i = .reset
  case pos =>
    obtain ⟨⟨tag, hps⟩, _⟩ := exec_init_or_reset hi hexec
    exact wfRotation_of_zero (by rw [hps]; rfl)
  by_cases hstart : ∃ f r o, i = .start f r o
  case pos =>
    obtain ⟨f, r, o, rfl⟩ := hstart
    exact wfRotation_of_zero (exec_start_rotation hexec)
  have hsame : t.ps.maskRotation = s.ps.maskRotation := by
    by_contra hne
    obtain hw | ⟨p, hp⟩ := rotation_writers hexec hi hne
    · exact hstart hw
    · exact hbound p hp
  simp only [wfRotation, decide_eq_true_eq] at hrot ⊢
  intro ht
  rw [hsame]
  exact hrot ((exec_rotation_phases hexec ht).resolve_left hstart)

end Sys2Proof.Writers

/-! How an operation moves the execute context and what it sends (R34, R111, R112): `Move` has one case for each
way, and `exec_move` says there is no other. -/

namespace Sys2Proof.Cursor

open Sys2Proof Sys2Proof.Machine

/-! ### The cursor -/

section
variable {c : ExecCtx}

/-- The bytes pending and the count, without the run. -/
theorem cursorOk_pending (h : cursorOk c = true) : c.rest ≠ [] ∧ c.pos + c.rest.length = c.n := by
  simp only [cursorOk, Bool.and_eq_true, decide_eq_true_eq] at h
  exact h.1

theorem cursorOk_header (h : cursorOk c = true) : cursorOk { c with wait := .emitting .header } = true := by
  simpa [cursorOk] using cursorOk_pending h

/-- A run within the bytes left may be put at a BODY or an END. -/
theorem cursorOk_run {k : Nat} (h : cursorOk c = true) (hpos : 1 ≤ k) (hle : k ≤ c.rest.length) :
    cursorOk { c with wait := .emitting (.body k) } = true ∧
    cursorOk { c with wait := .emitting (.frameEnd k) } = true := by
  have := cursorOk_pending h
  constructor <;> simpa [cursorOk, hpos, hle] using this

theorem cursorOk_suspended {p : EmitPoint} (h : cursorOk c = true) (hw : c.wait = .emitting p) :
    cursorOk { c with wait := .suspended p } = true := by
  unfold cursorOk at h ⊢
  rw [hw] at h
  cases p <;> exact h

/-- The run of a BODY lies within the bytes left. -/
theorem cursorOk_body {k : Nat} (h : cursorOk c = true)
    (hw : c.wait = .emitting (.body k) ∨ c.wait = .suspended (.body k)) : 1 ≤ k ∧ k ≤ c.rest.length := by
  rcases hw with hw | hw <;> simp only [cursorOk, hw, Bool.and_eq_true, decide_eq_true_eq] at h <;> exact h.2

theorem cursorOk_frameEnd {k : Nat} (h : cursorOk c = true)
    (hw : c.wait = .emitting (.frameEnd k) ∨ c.wait = .suspended (.frameEnd k)) :
    1 ≤ k ∧ k ≤ c.rest.length := by
  rcases hw with hw | hw <;> simp only [cursorOk, hw, Bool.and_eq_true, decide_eq_true_eq] at h <;> exact h.2

theorem cursorOk_advance {k : Nat} (h : cursorOk c = true) (hk : k < c.rest.length) :
    cursorOk (c.advance k) = true := by
  have hpend := cursorOk_pending h
  simp only [cursorOk, ExecCtx.advance, Bool.and_true, decide_eq_true_eq, List.length_drop, ne_eq,
    List.drop_eq_nil_iff]
  omega

end

/-! ### A step that goes on or takes the last byte -/

/-- The EXECUTE goes on with its count and its cursor in range and has sent nothing, or has returned `n`. -/
def Proceeds (c : ExecCtx) (s t : State) : Prop :=
  EndedWith c.n s t ∨
  ∃ c', t.ctx = some c' ∧ c'.n = c.n ∧ (cursorOk c = true → cursorOk c' = true) ∧ t.out = s.out

section
variable (c : ExecCtx) (s : State)

theorem proceeds_advance (k : Nat) : Proceeds c s (advance k c s) := by
  have h := advance_advancedBy k c s
  unfold AdvancedBy at h
  split at h
  case isTrue hk => exact .inr ⟨_, h.1, rfl, fun hc => cursorOk_advance hc hk, h.2⟩
  case isFalse => exact .inl h

theorem proceeds_reachEmit {p : EmitPoint}
    (h : cursorOk c = true → cursorOk { c with wait := .emitting p } = true) :
    Proceeds c s (reachEmit p c s) := .inr ⟨_, rfl, rfl, h, rfl⟩

theorem proceeds_postMask : Proceeds c s (postMask c s) := by
  unfold postMask
  split
  · exact proceeds_reachEmit c s cursorOk_header
  · exact proceeds_reachEmit c (s.withPs _) cursorOk_header

theorem proceeds_postLength : Proceeds c s (postLength c s) := by
  unfold postLength
  split
  · exact proceeds_advance c (s.withPs _) 1
  · exact proceeds_postMask c s

variable {c}

/-- Continue goes on, or comes to the END of the run just answered or of a zero-length frame. -/
theorem proceeds_continueFrom {p : EmitPoint} (hw : c.wait = .emitting p ∨ c.wait = .suspended p) :
    Proceeds c s (continueFrom p c s) := by
  cases p with
  | header =>
    simp only [continueFrom]
    split
    · refine proceeds_reachEmit c s fun hc => (cursorOk_run hc le_rfl ?_).2
      exact List.length_pos_iff.mpr (cursorOk_pending hc).1
    · exact proceeds_advance c s 1
  | body k =>
    simp only [continueFrom]
    split
    · refine proceeds_reachEmit c (s.withPs _) fun hc => ?_
      obtain ⟨hpos, hle⟩ := cursorOk_body hc hw
      exact (cursorOk_run hc hpos hle).2
    · exact proceeds_advance c (s.withPs _) k
  | frameEnd k => exact proceeds_advance c (s.withPs _) k

end

/-! ### Every operation -/

/-- What is added to the output holds no event. -/
def SendsNoEvent (s t : State) : Prop := ∃ o, t.out = s.out ++ o ∧ ∀ r data, OutRecord.evt r data ∉ o

theorem sendsNoEvent_of_same {s t : State} (h : t.out = s.out) : SendsNoEvent s t :=
  ⟨[], by simp [h], by simp⟩

theorem sendsNoEvent_respond (n : Option Nat) (r : Option (BitVec 2)) (s : State) :
    SendsNoEvent s (respond n r s) := ⟨_, rfl, by simp⟩

theorem EndedWith.sendsNoEvent {n : Nat} {s t : State} (h : EndedWith n s t) : SendsNoEvent s t := by
  obtain ⟨_, rot, hout⟩ := h
  exact ⟨_, hout, by simp⟩

theorem Proceeds.sendsNoEvent {c : ExecCtx} {s t : State} (h : Proceeds c s t) : SendsNoEvent s t := by
  obtain hend | ⟨_, _, _, _, hout⟩ := h
  · exact EndedWith.sendsNoEvent hend
  · exact sendsNoEvent_of_same hout

/-- The ways an operation moves the execute context. -/
inductive Move (s t : State) : Instr → Prop
  | proceeds (i c) : s.ctx = some c → Proceeds c s t → i ≠ .evtRsp true → i ≠ .badphase → Move s t i
  | suspends (c p) : s.ctx = some c → c.wait = .emitting p → eventEnabled s.cbEn p.kind = true →
      t.ctx = some { c with wait := .suspended p } →
      t.out = s.out ++ [.evt (evtRecord p s) (evtData p c)] → Move s t p.instr
  | errs (c) : s.ctx = some c → EndedWith c.pos s t → Move s t .badphase
  | aborts (c p) : SuspendedAt s c p → EndedWith (c.pos + abortOffset p) s t → Move s t (.evtRsp true)
  | begins (buf) : s.ctx = none →
      (t.ctx = none ∨ buf ≠ [] ∧ t.ctx = some { n := buf.length, pos := 0, rest := buf, wait := .running }) →
      SendsNoEvent s t → Move s t (.execute buf)
  | stays (i) : t.ctx = s.ctx → SendsNoEvent s t → Move s t i
  | resets : t.ctx = none → t.out = s.out → Move s t .reset

/-- An emission point's instruction is none of the two that end an EXECUTE short. -/
theorem instr_ne (p : EmitPoint) : p.instr ≠ .evtRsp true ∧ p.instr ≠ .badphase := by
  cases p <;> simp [EmitPoint.instr]

theorem exec_move {i : Instr} {s t : State} (h : exec i s = .next t) : Move s t i := by
  cases exec_effect h with
  | start c _ _ _ hsel | headX16 c _ hsel | headX64 c _ hsel | lenb c _ hsel | maskb c _ hsel =>
    exact .proceeds _ c hsel.1 (proceeds_advance c (s.withPs _) 1) (by simp) (by simp)
  | headS7 c _ _ hsel | lenbLast c _ hsel =>
    exact .proceeds _ c hsel.1 (proceeds_postLength c (s.withPs _)) (by simp) (by simp)
  | maskbLast c _ hsel =>
    exact .proceeds _ c hsel.1 (proceeds_postMask c (s.withPs _)) (by simp) (by simp)
  | bodyrun c p hsel _ hne =>
    have hrun (hc : cursorOk c = true) : cursorOk { c with wait := .emitting (.body p.length) } = true :=
      (cursorOk_run hc (List.length_pos_iff.mpr hne) hsel.2.2.2.length_le).1
    exact .proceeds _ c hsel.1 (proceeds_reachEmit c s hrun) (by simp) (by simp)
  | badphase c hsel => exact .errs c hsel.1 (Exceptions.unknownState_ended c s)
  | emit c p hc hw =>
    cases hen : eventEnabled s.cbEn p.kind with
    | true => exact .suspends c p hc hw hen (by rw [emit_enabled c hen]; rfl) (by rw [emit_enabled c hen]; rfl)
    | false =>
      rw [emit_disabled c hen]
      exact .proceeds _ c hc (proceeds_continueFrom s (.inl hw)) (instr_ne p).1 (instr_ne p).2
  | answerContinue c p hs =>
    exact .proceeds _ c hs.1 (proceeds_continueFrom s (.inr hs.2)) (by simp) (by simp)
  | answerAbort c p hs => exact .aborts c p hs (finish_ended _ { s with aborted := true })
  | executeEmpty hc => exact .begins [] hc (.inl rfl) (EndedWith.sendsNoEvent (finish_ended 0 s))
  | execute b p hc => exact .begins (b :: p) hc (.inr ⟨by simp, rfl⟩) (sendsNoEvent_of_same rfl)
  | init => exact .stays _ rfl (sendsNoEvent_respond _ _ { s with ps := initialised s.ps, aborted := false })
  | settings cb => exact .stays _ rfl (sendsNoEvent_respond _ _ { s with cbEn := cb })
  | maskBound src =>
    obtain ⟨rsp, hout, _⟩ := maskTransaction_out s.ps.maskKey s.ps.maskRotation src (s.withPs _)
    exact .stays _ rfl ⟨_, hout, by simp⟩
  | maskFree key rot src =>
    obtain ⟨rsp, hout, _⟩ := maskTransaction_out key rot src s
    exact .stays _ rfl ⟨_, hout, by simp⟩
  | read | readFree => exact .stays _ rfl ⟨_, rfl, by simp⟩
  | tag => exact .stays _ rfl (sendsNoEvent_of_same rfl)
  | reset => exact .resets rfl rfl

/-- An operation sends no event, or the one whose emission point it is at and which is enabled. -/
theorem Move.sends {s t : State} {i : Instr} (h : Move s t i) : SendsNoEvent s t ∨
    ∃ p r data, eventEnabled s.cbEn p = true ∧ t.out = s.out ++ [.evt r data] := by
  cases h with
  | proceeds _ _ _ hp => exact .inl hp.sendsNoEvent
  | suspends c p _ _ hen _ hout => exact .inr ⟨p.kind, _, _, hen, hout⟩
  | errs _ _ hend | aborts _ _ _ hend => exact .inl (EndedWith.sendsNoEvent hend)
  | begins _ _ _ hout | stays _ _ hout => exact .inl hout
  | resets _ hout => exact .inl (sendsNoEvent_of_same hout)

/-- Settles O53: whatever is sent is appended. -/
theorem outputOnlyGrows : Obligations.OutputOnlyGrows := by
  unfold Obligations.OutputOnlyGrows
  intro s t i h
  obtain ⟨o, hout, _⟩ | ⟨_, _, _, _, hout⟩ := (exec_move h).sends <;> rw [hout] <;> exact List.prefix_append _ _

/-- Settles O54: only an enabled event is ever appended. -/
theorem noEventWithoutEnable : Obligations.NoEventWithoutEnable := by
  unfold Obligations.NoEventWithoutEnable
  intro s t i r data hcb h hmem
  obtain ⟨o, hout, hno⟩ | ⟨p, _, _, hen, _⟩ := (exec_move h).sends
  · rw [hout, List.mem_append] at hmem
    exact hmem.resolve_right (hno r data)
  · cases p <;> simp [hcb, eventEnabled] at hen

/-- The count of an Abort points at a byte of the buffer. -/
theorem abort_count_lt {c : ExecCtx} {p : EmitPoint} (h : cursorOk c = true) (hw : c.wait = .suspended p) :
    c.pos + abortOffset p < c.n := by
  obtain ⟨hrest, hn⟩ := cursorOk_pending h
  have := List.length_pos_iff.mpr hrest
  cases p with
  | header | body k => simp only [abortOffset]; omega
  | frameEnd k =>
    have := cursorOk_frameEnd h (.inr hw)
    simp only [abortOffset]
    omega

/-- Settles O55: a step that proceeds ends with `n`; only BADPHASE and Abort return a count below it. -/
theorem shortCountExactlyOnFailure : Obligations.ShortCountExactlyOnFailure := by
  unfold Obligations.ShortCountExactlyOnFailure
  intro s t c i hc hcur hreset hexec hend
  obtain ⟨hrest, hn⟩ := cursorOk_pending hcur
  have hpos := List.length_pos_iff.mpr hrest
  cases exec_move hexec with
  | proceeds _ c' hc' hp habort hbad =>
    obtain rfl : c = c' := by simpa [hc] using hc'
    obtain hended | ⟨_, hsome, _⟩ := hp
    · exact ⟨c.n, hended, le_rfl, by simp [habort, hbad]⟩
    · simp [hend] at hsome
  | suspends _ _ _ _ _ hsome => simp [hend] at hsome
  | errs c' hc' hended =>
    obtain rfl : c = c' := by simpa [hc] using hc'
    have hlt : c.pos < c.n := by omega
    exact ⟨c.pos, hended, hlt.le, by simp [hlt]⟩
  | aborts c' p hs hended =>
    obtain rfl : c = c' := by simpa [hc] using hs.1
    have hlt := abort_count_lt hcur hs.2
    exact ⟨_, hended, hlt.le, by simp [hlt]⟩
  | begins _ hidle => simp [hc] at hidle
  | stays _ hsame => simp [hc, hend] at hsame
  | resets => exact absurd rfl hreset

/-! ### The cursor over a step -/

/-- The cursor of the EXECUTE in progress, if there is one, is in range. -/
def CursorInRange (s : State) : Prop := ∀ c, s.ctx = some c → cursorOk c = true

theorem cursorInRange_of_idle {s : State} (h : s.ctx = none) : CursorInRange s := by
  intro c hc
  rw [h] at hc
  cases hc

theorem cursorInRange_iff_of_some {s : State} {c : ExecCtx} (h : s.ctx = some c) :
    CursorInRange s ↔ cursorOk c = true := by simp [CursorInRange, h]

theorem Move.keepsCursor {s t : State} {i : Instr} (h : Move s t i) (hs : CursorInRange s) :
    CursorInRange t := by
  cases h with
  | proceeds _ c hc hp =>
    obtain hend | ⟨c', hc', _, hok, _⟩ := hp
    · exact cursorInRange_of_idle hend.1
    · exact (cursorInRange_iff_of_some hc').mpr (hok (hs c hc))
  | suspends c p hc hw _ ht => exact (cursorInRange_iff_of_some ht).mpr (cursorOk_suspended (hs c hc) hw)
  | errs _ _ hend | aborts _ _ _ hend => exact cursorInRange_of_idle hend.1
  | begins buf _ ht =>
    obtain ht | ⟨hne, ht⟩ := ht
    · exact cursorInRange_of_idle ht
    · exact (cursorInRange_iff_of_some ht).mpr (by simp [cursorOk, hne])
  | stays _ ht => exact fun c hc => hs c (ht ▸ hc)
  | resets ht => exact cursorInRange_of_idle ht

/-- Settles O47: whatever is executed keeps the cursor, and what is fetched leaves the context as it is. -/
theorem stepKeepsCursor : Obligations.StepKeepsCursor := by
  unfold Obligations.StepKeepsCursor
  intro s t hs hstep
  obtain rfl | ⟨c, _, _, _, rfl⟩ | ⟨e, i, s', _, hexec, hs'⟩ := step_cases hstep
  · exact hs
  · exact cursorInRange_of_idle rfl
  · have hcur : CursorInRange s' := by obtain rfl | ⟨rs, rfl⟩ := hs' <;> exact hs
    exact (exec_move hexec).keepsCursor hcur

end Sys2Proof.Cursor

/-! The invariant of the machine (R36, R37): well-formedness phase by phase, the shape of a state at every point
of an EXECUTE, and that each operation keeps it. -/

namespace Sys2Proof.Invariant

open Sys2Proof Sys2Proof.Machine Sys2Proof.Cursor

/-! ### The length accumulates exactly (R53, R120, R134) -/

theorem zeroExtend_eq_ofNat {w : Nat} (x : BitVec w) : x.zeroExtend 64 = BitVec.ofNat 64 x.toNat := by
  apply BitVec.eq_of_toNat_eq
  simp [BitVec.toNat_setWidth]

/-- While bits 63 to 56 are clear the shift drops nothing, and the new byte lands on zeros. -/
theorem accumulateLength_toNat {length : Word64} (e : Byte) (h : length.toNat < 2 ^ 56) :
    (accumulateLength length e).toNat = length.toNat * 256 + e.toNat := by
  have hshift : (length <<< 8).toNat = length.toNat <<< 8 := by
    rw [BitVec.toNat_shiftLeft, Nat.shiftLeft_eq, Nat.mod_eq_of_lt (by omega)]
  have hbyte : (e.zeroExtend 64).toNat = e.toNat := by
    rw [zeroExtend_eq_ofNat, BitVec.toNat_ofNat]
    omega
  rw [accumulateLength, BitVec.toNat_or, hshift, hbyte, ← Nat.shiftLeft_add_eq_or_of_lt e.isLt,
    Nat.shiftLeft_eq]

/-- The value of a big-endian run of bytes after the number `n` (R53). -/
def bigEndian (n : Nat) (bytes : List Byte) : Nat := bytes.foldl (fun n e => n * 256 + e.toNat) n

/-- WF's clause on `length` with `r` bytes to come (R36) leaves room for one, and holds with one fewer after it. -/
theorem length_room {n r : Nat} (e : Byte) (h : n < 2 ^ (8 * (8 - r))) (hr : 1 ≤ r) (hr8 : r ≤ 8) :
    n < 2 ^ 56 ∧ n * 256 + e.toNat < 2 ^ (8 * (8 - (r - 1))) := by
  have he : e.toNat < 256 := e.isLt
  have hexp : 8 * (8 - (r - 1)) = 8 * (8 - r) + 8 := by omega
  refine ⟨h.trans_le (Nat.pow_le_pow_right (by omega) (by omega)), ?_⟩
  rw [hexp, pow_add]
  omega

theorem foldl_accumulateLength_toNat (bytes : List Byte) (length : Word64) (h8 : bytes.length ≤ 8)
    (h : length.toNat < 2 ^ (8 * (8 - bytes.length))) :
    (bytes.foldl accumulateLength length).toNat = bigEndian length.toNat bytes := by
  induction bytes generalizing length with
  | nil => rfl
  | cons e bytes ih =>
    obtain ⟨hroom, hnext⟩ := length_room e h (by simp) h8
    have hacc := accumulateLength_toNat e hroom
    rw [List.length_cons, Nat.add_sub_cancel, ← hacc] at hnext
    have h8' : bytes.length ≤ 8 := by simp at h8; omega
    rw [List.foldl_cons, ih _ h8' hnext, hacc]
    rfl

/-- Settles O43: two and eight bytes are cases of the accumulation from 0. -/
theorem extendedLengthBigEndian : Obligations.ExtendedLengthBigEndian := by
  unfold Obligations.ExtendedLengthBigEndian
  intro e0 e1 e2 e3 e4 e5 e6 e7
  constructor
  · have h := foldl_accumulateLength_toNat [e0, e1] 0 (by simp) (by simp)
    simpa [bigEndian] using h
  · rw [foldl_accumulateLength_toNat _ 0 (by simp) (by simp)]
    simp only [bigEndian, List.foldl_cons, List.foldl_nil, BitVec.ofNat_eq_ofNat, BitVec.toNat_ofNat,
      Nat.zero_mod]
    ring

/-! ### `WF` phase by phase (R36) -/

section
variable {p : ParserState}

theorem wfCore_start (h : p.phase = phaseStart) :
    wfCore p = true ↔ p.error = .ok ∧ p.length = 0 ∧ p.remaining = 0 := by simp [wfCore, h]

theorem wfCore_head (h : p.phase = phaseHead) :
    wfCore p = true ↔ p.error = .ok ∧ p.length = 0 ∧ p.remaining = 0 ∧ p.bodyDelivered = 0 := by
  simp [wfCore, h]

theorem wfCore_length (h : p.phase = phaseLength) :
    wfCore p = true ↔ p.error = .ok ∧ 1 ≤ p.remaining.toNat ∧ p.remaining.toNat ≤ 8 ∧
      p.length.toNat < 2 ^ (8 * (8 - p.remaining.toNat)) ∧ p.bodyDelivered = 0 := by simp [wfCore, h]

theorem wfCore_mask (h : p.phase = phaseMask) :
    wfCore p = true ↔ p.error = .ok ∧ p.hasMask = true ∧ 1 ≤ p.remaining.toNat ∧ p.remaining.toNat ≤ 4 ∧
      p.bodyDelivered = 0 := by simp [wfCore, h]

theorem wfCore_body (h : p.phase = phaseBody) :
    wfCore p = true ↔ p.error = .ok ∧ 1 ≤ p.remaining.toNat ∧ p.remaining.toNat ≤ p.length.toNat ∧
      p.bodyDelivered.toNat = p.length.toNat - p.remaining.toNat := by simp [wfCore, h]

theorem wf_iff : wf p = true ↔ wfCore p = true ∧ wfRotation p = true := by simp [wf]

/-- Outside Head, Length and Mask the rotation is free. -/
theorem wfRotation_of_phase (h : p.phase = phaseStart ∨ p.phase = phaseBody) : wfRotation p = true := by
  rcases h with h | h <;> simp [wfRotation, h]

theorem rotation_zero (h : wf p = true)
    (hp : p.phase = phaseHead ∨ p.phase = phaseLength ∨ p.phase = phaseMask) : p.maskRotation = 0 :=
  of_decide_eq_true (wf_iff.mp h).2 hp

end

theorem exec_lenb_next {e : Byte} {s t : State} (h : exec (.lenb e) s = .next t) :
    s.ps.phase = phaseLength ∧ t.ps.length = accumulateLength s.ps.length e := by
  obtain ⟨c, hsel, hreq⟩ := selected_next (show execLenb e s = .next t from h)
  obtain ⟨_, ht⟩ := requires_next hreq
  refine ⟨hsel.2.2.1, ?_⟩
  cases ht
  split <;> simp

/-- Settles O44: in Length the clause of WF on `length` leaves room for the byte. -/
theorem lengthIsExact : Obligations.LengthIsExact := by
  unfold Obligations.LengthIsExact
  intro s t e hwf hexec
  obtain ⟨hphase, hlength⟩ := exec_lenb_next hexec
  obtain ⟨_, hlo, hhi, hlen, _⟩ := (wfCore_length hphase).mp hwf
  rw [hlength]
  exact accumulateLength_toNat e (length_room e hlen hlo hhi).1

/-! ### The shape of a state: idle, between two steps, at an event (R36, R37, R124, R125, R127) -/

/-- The clauses of `State.inv` that speak of the condition of the block. -/
inductive Shaped (s : State) : Prop
  | idle : s.ctx = none → s.aborted = false → wfCore s.ps = true → Shaped s
  | idleAborted : s.ctx = none → s.aborted = true → abortedShape s.ps = true → Shaped s
  | running (c) : s.ctx = some c → c.wait = .running → s.aborted = false → wf s.ps = true → Shaped s
  | atPoint (c p) : s.ctx = some c → c.wait = .emitting p ∨ c.wait = .suspended p → s.aborted = false →
      pointOk p s.ps c.rest.length = true → Shaped s

section
variable {s : State} {c : ExecCtx}

theorem shaped_idle (hc : s.ctx = none) :
    Shaped s ↔ (if s.aborted then abortedShape s.ps else wfCore s.ps) = true := by
  constructor
  · intro h
    cases h with
    | idle _ hab hwf => simpa [hab] using hwf
    | idleAborted _ hab hwf => simpa [hab] using hwf
    | running _ hc' | atPoint _ _ hc' => simp [hc] at hc'
  · intro h
    split at h
    case isTrue hab => exact .idleAborted hc hab h
    case isFalse hab => exact .idle hc (by simpa using hab) h

theorem shaped_running (hc : s.ctx = some c) (hw : c.wait = .running) :
    Shaped s ↔ s.aborted = false ∧ wf s.ps = true := by
  constructor
  · intro h
    cases h with
    | idle hc' | idleAborted hc' => simp [hc] at hc'
    | running _ _ _ hab hwf => exact ⟨hab, hwf⟩
    | atPoint c' p hc' hw' =>
      obtain rfl : c = c' := by simpa [hc] using hc'
      simp [hw] at hw'
  · rintro ⟨hab, hwf⟩
    exact .running c hc hw hab hwf

theorem shaped_atPoint {p : EmitPoint} (hc : s.ctx = some c)
    (hw : c.wait = .emitting p ∨ c.wait = .suspended p) :
    Shaped s ↔ s.aborted = false ∧ pointOk p s.ps c.rest.length = true := by
  constructor
  · intro h
    cases h with
    | idle hc' | idleAborted hc' => simp [hc] at hc'
    | running c' hc' hw' =>
      obtain rfl : c = c' := by simpa [hc] using hc'
      simp [hw'] at hw
    | atPoint c' p' hc' hw' hab hp =>
      obtain rfl : c = c' := by simpa [hc] using hc'
      obtain rfl : p = p' := by rcases hw with hw | hw <;> simpa [hw] using hw'
      exact ⟨hab, hp⟩
  · rintro ⟨hab, hp⟩
    exact .atPoint c p hc hw hab hp

/-- Where a parser's step is selected, the state is WF in full. -/
theorem Shaped.of_selected {ph : BitVec 3} {bytes : List Byte} (h : Shaped s) (hsel : Selects s c ph bytes) :
    s.aborted = false ∧ s.ps.phase = ph ∧ wf s.ps = true := by
  obtain ⟨hc, hw, hp, _⟩ := hsel
  obtain ⟨hab, hwf⟩ := (shaped_running hc hw).mp h
  exact ⟨hab, hp, hwf⟩

/-- `State.inv` taken apart. -/
theorem inv_iff : s.inv = true ↔
    (s.params.ok ∧ s.ps.tag.toNat < 2 ^ s.params.tagW ∧ s.ps.error = .ok ∧ s.ps.phase.toNat ≤ 4) ∧
    CursorInRange s ∧ (∀ c, s.ctx = some c → c.n < 2 ^ s.params.cntW) ∧ Shaped s := by
  rcases hc : s.ctx with _ | c
  case none => simp [State.inv, hc, shaped_idle hc, cursorInRange_of_idle hc]
  case some =>
    rcases hw : c.wait with _ | p | p
    case' running => rw [shaped_running hc hw]
    case' emitting => rw [shaped_atPoint hc (.inl hw)]
    case' suspended => rw [shaped_atPoint hc (.inr hw)]
    all_goals
      simp only [State.inv, hc, hw, cursorInRange_iff_of_some hc, Bool.and_eq_true, decide_eq_true_eq,
        Bool.not_eq_true', Option.some.injEq, forall_eq']
      tauto

/-- A counter of at least 2 counts down without wrapping and stays above 0. -/
theorem counter_down {r : Word64} {bound : Nat} (h2 : 2 ≤ r.toNat) (hle : r.toNat ≤ bound) :
    (r - 1).toNat = r.toNat - 1 ∧ 1 ≤ (r - 1).toNat ∧ (r - 1).toNat ≤ bound := by
  have hsub : (r - 1).toNat = r.toNat - 1 := by bv_omega
  omega

/-! ### The state at an emission point (R124, R125, R127) -/

section
variable {q : ParserState} {n k : Nat}

theorem zeroFrame_iff : zeroFrame q = true ↔
    (q.phase = phaseHead ∨ q.phase = phaseLength ∨ q.phase = phaseMask) ∧
    q.hasMask = decide (q.phase = phaseMask) ∧ q.length = 0 ∧ q.remaining = 0 ∧ q.bodyDelivered = 0 :=
  decide_eq_true_iff

theorem endOfRun_iff : endOfRun q = true ↔
    q.phase = phaseBody ∧ q.remaining = 0 ∧ q.length ≠ 0 ∧ q.bodyDelivered = q.length :=
  decide_eq_true_iff

theorem pointOk_header : pointOk .header q n = true ↔
    zeroFrame q = true ∨ wfCore q = true ∧ q.phase = phaseBody ∧ q.remaining = q.length := by
  rw [pointOk, Bool.or_eq_true, Bool.and_eq_true, decide_eq_true_iff]

theorem pointOk_body : pointOk (.body k) q n = true ↔
    wfCore q = true ∧ q.phase = phaseBody ∧ k = runLength q.remaining n := by
  rw [pointOk, Bool.and_eq_true, decide_eq_true_iff]

theorem pointOk_frameEnd : pointOk (.frameEnd k) q n = true ↔
    zeroFrame q = true ∧ k = 1 ∨ endOfRun q = true ∧ 1 ≤ k ∧ k ≤ n := by
  rw [pointOk, Bool.or_eq_true, Bool.and_eq_true, Bool.and_eq_true, decide_eq_true_iff, decide_eq_true_iff]

/-- An Abort at an event leaves one of the shapes R37 names. -/
theorem abortedShape_of_pointOk {p : EmitPoint} (h : pointOk p q n = true) : abortedShape q = true := by
  rw [abortedShape, Bool.or_eq_true, Bool.or_eq_true]
  cases p with
  | header => have := pointOk_header.mp h; tauto
  | body k => have := pointOk_body.mp h; tauto
  | frameEnd k => have := pointOk_frameEnd.mp h; tauto

end

/-! ### What each operation makes of the shape -/

theorem shaped_advance {k : Nat} (hab : s.aborted = false) (hwf : wf s.ps = true) : Shaped (advance k c s) := by
  have hmove := advance_advancedBy k c s
  unfold AdvancedBy at hmove
  split at hmove
  · exact .running _ hmove.1 rfl (by simpa using hab) (by simpa using hwf)
  · exact .idle hmove.1 (by simpa using hab) (by simpa using wfCore_of_wf hwf)

theorem shaped_reachEmit {p : EmitPoint} (hab : s.aborted = false)
    (hp : pointOk p s.ps c.rest.length = true) : Shaped (reachEmit p c s) :=
  .atPoint _ p rfl (.inl rfl) hab hp

/-- The header is complete and no payload has come: what PostMask starts from. -/
theorem shaped_postMask (hab : s.aborted = false) (herr : s.ps.error = .ok)
    (hphase : s.ps.phase = phaseHead ∨ s.ps.phase = phaseLength ∨ s.ps.phase = phaseMask)
    (hmask : s.ps.hasMask = decide (s.ps.phase = phaseMask)) (hrem : s.ps.remaining = 0)
    (hbody : s.ps.bodyDelivered = 0) : Shaped (postMask c s) := by
  by_cases hlen : s.ps.length = 0
  case pos =>
    rw [postMask_zero c hlen]
    refine shaped_reachEmit hab ?_
    exact pointOk_header.mpr (.inl (zeroFrame_iff.mpr ⟨hphase, hmask, hlen, hrem, hbody⟩))
  case neg =>
    rw [postMask_body c hlen]
    refine shaped_reachEmit hab ?_
    have hpos : 1 ≤ s.ps.length.toNat := by bv_omega
    have hstart : s.ps.bodyDelivered.toNat = s.ps.length.toNat - s.ps.length.toNat := by simp [hbody]
    exact pointOk_header.mpr (.inr ⟨(wfCore_body rfl).mpr ⟨herr, hpos, le_rfl, hstart⟩, rfl, rfl⟩)

/-- The length is complete: what PostLength starts from. -/
theorem shaped_postLength (hab : s.aborted = false) (herr : s.ps.error = .ok)
    (hphase : s.ps.phase = phaseHead ∨ s.ps.phase = phaseLength) (hrem : s.ps.remaining = 0)
    (hbody : s.ps.bodyDelivered = 0) (hrot : s.ps.maskRotation = 0) : Shaped (postLength c s) := by
  cases hmask : s.ps.hasMask with
  | true =>
    rw [postLength_masked c hmask]
    have hcore : wfCore { s.ps with phase := phaseMask, remaining := 4 } = true :=
      (wfCore_mask rfl).mpr ⟨herr, hmask, by simp, by simp, hbody⟩
    exact shaped_advance hab (wf_iff.mpr ⟨hcore, Writers.wfRotation_of_zero hrot⟩)
  | false =>
    rw [postLength_unmasked c hmask]
    have hne : s.ps.phase ≠ phaseMask := by rcases hphase with h | h <;> simp [h]
    have hmask' : s.ps.hasMask = decide (s.ps.phase = phaseMask) := by rw [hmask, decide_eq_false hne]
    exact shaped_postMask hab herr (by tauto) hmask' hrem hbody

/-- ParserState after the BODY of a run of `k` bytes (R122). -/
def afterRun (p : ParserState) (k : Nat) : ParserState :=
  { p with remaining := p.remaining - BitVec.ofNat 64 k,
           bodyDelivered := p.bodyDelivered + BitVec.ofNat 64 k }

theorem continueFrom_body {k : Nat} : continueFrom (.body k) c s =
    if (afterRun s.ps k).remaining = 0 then reachEmit (.frameEnd k) c (s.withPs (afterRun s.ps k))
    else advance k c (s.withPs (afterRun s.ps k)) := rfl

/-- A run within the frame keeps WF, or ends the frame. -/
theorem afterRun_shape {p : ParserState} {k : Nat} (hphase : p.phase = phaseBody) (hwf : wfCore p = true)
    (hk : k ≤ p.remaining.toNat) :
    ((afterRun p k).remaining = 0 → endOfRun (afterRun p k) = true) ∧
    ((afterRun p k).remaining ≠ 0 → wf (afterRun p k) = true) := by
  obtain ⟨herr, hpos, hle, hbody⟩ := (wfCore_body hphase).mp hwf
  have hrem' : (afterRun p k).remaining.toNat = p.remaining.toNat - k := by
    simp only [afterRun]
    bv_omega
  have hbody' : (afterRun p k).bodyDelivered.toNat = p.bodyDelivered.toNat + k := by
    simp only [afterRun]
    bv_omega
  constructor
  · intro hzero
    have hlen : p.length ≠ 0 := by bv_omega
    have hdone : (afterRun p k).bodyDelivered = p.length := by bv_omega
    exact endOfRun_iff.mpr ⟨hphase, hzero, hlen, hdone⟩
  · intro hmore
    have hpos' : 1 ≤ (afterRun p k).remaining.toNat := by bv_omega
    have hle' : (afterRun p k).remaining.toNat ≤ p.length.toNat := by omega
    have hsum : (afterRun p k).bodyDelivered.toNat = p.length.toNat - (afterRun p k).remaining.toNat := by omega
    have hcore := (wfCore_body (p := afterRun p k) hphase).mpr ⟨herr, hpos', hle', hsum⟩
    exact wf_iff.mpr ⟨hcore, wfRotation_of_phase (.inr hphase)⟩

theorem enterStart_wf {p : ParserState} (herr : p.error = .ok) : wf (enterStart p) = true :=
  wf_iff.mpr ⟨(wfCore_start rfl).mpr ⟨herr, rfl, rfl⟩, wfRotation_of_phase (.inl rfl)⟩

/-- Continue leads from an event to what the rules say next. -/
theorem shaped_continueFrom {p : EmitPoint} (hab : s.aborted = false) (herr : s.ps.error = .ok)
    (hcur : cursorOk c = true) (hw : c.wait = .emitting p ∨ c.wait = .suspended p)
    (hp : pointOk p s.ps c.rest.length = true) : Shaped (continueFrom p c s) := by
  cases p with
  | header =>
    simp only [continueFrom]
    obtain hzero | ⟨hwf, hphase, hrem⟩ := pointOk_header.mp hp
    case inl =>
      obtain ⟨_, _, hlen, _⟩ := zeroFrame_iff.mp hzero
      rw [if_pos hlen]
      exact shaped_reachEmit hab (pointOk_frameEnd.mpr (.inl ⟨hzero, rfl⟩))
    case inr =>
      obtain ⟨_, hpos, _, _⟩ := (wfCore_body hphase).mp hwf
      have hlen : s.ps.length ≠ 0 := by
        rw [← hrem]
        bv_omega
      rw [if_neg hlen]
      exact shaped_advance hab (wf_iff.mpr ⟨hwf, wfRotation_of_phase (.inr hphase)⟩)
  | body k =>
    obtain ⟨hwf, hphase, hk⟩ := pointOk_body.mp hp
    obtain ⟨hk1, hkn⟩ := cursorOk_body hcur hw
    obtain ⟨hend, hmore⟩ := afterRun_shape hphase hwf (k := k) (hk ▸ Nat.min_le_left _ _)
    rw [continueFrom_body]
    split
    case isTrue hzero =>
      exact shaped_reachEmit hab (pointOk_frameEnd.mpr (.inr ⟨hend hzero, hk1, hkn⟩))
    case isFalse hne => exact shaped_advance hab (hmore hne)
  | frameEnd k => exact shaped_advance hab (enterStart_wf herr)

/-! ### Every effect keeps the shape -/

/-- What an operation that writes neither the context nor `aborted` must keep of ParserState. -/
theorem Shaped.of_same {t : State} (h : Shaped s) (hc : t.ctx = s.ctx) (hab : t.aborted = s.aborted)
    (hcore : wfCore t.ps = wfCore s.ps) (haborted : abortedShape t.ps = abortedShape s.ps)
    (hwf : (∃ c, s.ctx = some c ∧ c.wait = .running) → wf t.ps = wf s.ps)
    (hpoint : ∀ p n, pointOk p t.ps n = pointOk p s.ps n) : Shaped t := by
  cases h with
  | idle h1 h2 h3 => exact .idle (hc.trans h1) (hab.trans h2) (hcore.trans h3)
  | idleAborted h1 h2 h3 => exact .idleAborted (hc.trans h1) (hab.trans h2) (haborted.trans h3)
  | running c h1 h2 h3 h4 =>
    exact .running c (hc.trans h1) h2 (hab.trans h3) ((hwf ⟨c, h1, h2⟩).trans h4)
  | atPoint c p h1 h2 h3 h4 => exact .atPoint c p (hc.trans h1) h2 (hab.trans h3) ((hpoint p _).trans h4)

theorem effect_shaped {t : State} {i : Instr} (h : Effect s i t) (hs : Shaped s) (herr : s.ps.error = .ok)
    (hphase : s.ps.phase.toNat ≤ 4) (hcur : CursorInRange s) : Shaped t := by
  cases h with
  | start c f r o hsel =>
    obtain ⟨hab, hp, hwf⟩ := hs.of_selected hsel
    obtain ⟨_, hlen, hrem⟩ := (wfCore_start hp).mp (wfCore_of_wf hwf)
    exact shaped_advance hab (wf_iff.mpr
      ⟨(wfCore_head rfl).mpr ⟨herr, hlen, hrem, rfl⟩, Writers.wfRotation_of_zero rfl⟩)
  | headS7 c m l hsel =>
    obtain ⟨hab, hp, hwf⟩ := hs.of_selected hsel
    obtain ⟨_, hlen, hrem, hbody⟩ := (wfCore_head hp).mp (wfCore_of_wf hwf)
    have hrot := rotation_zero hwf (.inl hp)
    exact shaped_postLength hab herr (.inl hp) hrem hbody hrot
  | headX16 c m hsel | headX64 c m hsel =>
    obtain ⟨hab, hp, hwf⟩ := hs.of_selected hsel
    obtain ⟨_, _, _, hbody⟩ := (wfCore_head hp).mp (wfCore_of_wf hwf)
    have hrot := rotation_zero hwf (.inl hp)
    exact shaped_advance hab (wf_iff.mpr
      ⟨(wfCore_length rfl).mpr ⟨herr, by simp, by simp, by simp, hbody⟩, Writers.wfRotation_of_zero hrot⟩)
  | lenbLast c e hsel =>
    obtain ⟨hab, hp, hwf⟩ := hs.of_selected hsel
    obtain ⟨_, _, _, _, hbody⟩ := (wfCore_length hp).mp (wfCore_of_wf hwf)
    have hrot := rotation_zero hwf (.inr (.inl hp))
    exact shaped_postLength hab herr (.inr hp) rfl hbody hrot
  | lenb c e hsel hlo hhi =>
    obtain ⟨hab, hp, hwf⟩ := hs.of_selected hsel
    obtain ⟨_, hpos, _, hlen, hbody⟩ := (wfCore_length hp).mp (wfCore_of_wf hwf)
    have hrot := rotation_zero hwf (.inr (.inl hp))
    obtain ⟨hroom, hnext⟩ := length_room e hlen hpos hhi
    obtain ⟨hrem, hpos', hle'⟩ := counter_down hlo hhi
    rw [← accumulateLength_toNat e hroom, ← hrem] at hnext
    have hcore := (wfCore_length (p := { s.ps with
      length := accumulateLength s.ps.length e, remaining := s.ps.remaining - 1 }) hp).mpr
      ⟨herr, hpos', hle', hnext, hbody⟩
    exact shaped_advance hab (wf_iff.mpr ⟨hcore, Writers.wfRotation_of_zero hrot⟩)
  | maskbLast c k hsel =>
    obtain ⟨hab, hp, hwf⟩ := hs.of_selected hsel
    obtain ⟨_, hmask, _, _, hbody⟩ := (wfCore_mask hp).mp (wfCore_of_wf hwf)
    exact shaped_postMask hab herr (.inr (.inr hp)) (by simp [hmask, hp]) rfl hbody
  | maskb c k hsel hlo hhi =>
    obtain ⟨hab, hp, hwf⟩ := hs.of_selected hsel
    obtain ⟨_, hmask, _, _, hbody⟩ := (wfCore_mask hp).mp (wfCore_of_wf hwf)
    have hrot := rotation_zero hwf (.inr (.inr hp))
    obtain ⟨_, hpos', hle'⟩ := counter_down hlo hhi
    have hcore := (wfCore_mask (p := { s.ps with
      maskKey := setKeyByte s.ps.maskKey (4 - s.ps.remaining.toNat) k, remaining := s.ps.remaining - 1 }) hp).mpr
      ⟨herr, hmask, hpos', hle', hbody⟩
    exact shaped_advance hab (wf_iff.mpr ⟨hcore, Writers.wfRotation_of_zero hrot⟩)
  | bodyrun c p hsel _ _ hlen =>
    obtain ⟨hab, hp, hwf⟩ := hs.of_selected hsel
    exact shaped_reachEmit hab (pointOk_body.mpr ⟨wfCore_of_wf hwf, hp, hlen⟩)
  | badphase c _ h5 => omega
  | emit c p hc hw =>
    obtain ⟨hab, hp⟩ := (shaped_atPoint hc (.inl hw)).mp hs
    cases hen : eventEnabled s.cbEn p.kind with
    | true =>
      rw [emit_enabled c hen]
      exact .atPoint _ p rfl (.inr rfl) hab hp
    | false =>
      rw [emit_disabled c hen]
      exact shaped_continueFrom hab herr (hcur c hc) (.inl hw) hp
  | answerContinue c p hsusp =>
    obtain ⟨hab, hp⟩ := (shaped_atPoint hsusp.1 (.inr hsusp.2)).mp hs
    exact shaped_continueFrom hab herr (hcur c hsusp.1) (.inr hsusp.2) hp
  | answerAbort c p hsusp =>
    obtain ⟨_, hp⟩ := (shaped_atPoint hsusp.1 (.inr hsusp.2)).mp hs
    exact .idleAborted rfl rfl (abortedShape_of_pointOk hp)
  | init hc => exact .idle hc rfl rfl
  | reset => exact .idle rfl rfl rfl
  | settings cb hc => exact hs.of_same rfl rfl rfl rfl (fun _ => rfl) (fun _ _ => rfl)
  | executeEmpty hc => exact (shaped_idle rfl).mpr ((shaped_idle hc).mp hs)
  | execute b p hc hab hwf =>
    have hwf : wf s.ps = true := by
      rcases hwf with hunknown | h5 | hwf
      · simp [herr] at hunknown
      · omega
      · exact hwf
    exact .running _ rfl rfl hab hwf
  | maskBound src hab hquiet =>
    refine hs.of_same rfl rfl rfl rfl (fun ⟨c, hc, hw⟩ => ?_) (fun _ _ => rfl)
    rcases hquiet with hidle | ⟨c', p, hc', hw'⟩
    · simp [hc] at hidle
    · obtain rfl : c = c' := by simpa [hc] using hc'
      simp [hw] at hw'
  | maskFree | read | readFree | tag => exact hs.of_same rfl rfl rfl rfl (fun _ => rfl) (fun _ _ => rfl)

/-! ### The invariant -/

theorem truncateTag_lt (P : Params) (v : Word64) : (truncateTag P v).toNat < 2 ^ P.tagW := by
  have hlt : v.toNat % 2 ^ P.tagW < 2 ^ P.tagW := Nat.mod_lt _ (Nat.two_pow_pos _)
  rw [truncateTag, BitVec.toNat_ofNat]
  exact (Nat.mod_le _ _).trans_lt hlt

/-- Reset and TAG write `tag` cut to its width, and nothing else writes it. -/
theorem exec_tag_cases {t : State} {i : Instr} (h : exec i s = .next t) :
    t.ps.tag = s.ps.tag ∨ ∃ v, t.ps.tag = truncateTag s.params v := by
  by_cases hi : i = .init ∨ i = .reset
  case pos =>
    obtain rfl | rfl := hi
    · obtain ⟨_, ht⟩ := admitted_next (show execInit s = .next t from h)
      cases ht
      exact .inl rfl
    · cases h
      exact .inr ⟨_, rfl⟩
  by_cases hne : t.ps.tag = s.ps.tag
  case pos => exact .inl hne
  obtain ⟨v, rfl⟩ := Writers.tag_writer h hi hne
  obtain ⟨_, ht⟩ := admitted_next (show execTag v s = .next t from h)
  cases ht
  exact .inr ⟨v, rfl⟩

theorem exec_tag_lt {t : State} {i : Instr} (h : exec i s = .next t)
    (htag : s.ps.tag.toNat < 2 ^ s.params.tagW) : t.ps.tag.toNat < 2 ^ s.params.tagW := by
  obtain ht | ⟨v, ht⟩ := exec_tag_cases h <;> rw [ht]
  · exact htag
  · exact truncateTag_lt s.params v

/-- BADPHASE needs an invalid phase, so with a valid one no operation sets `error`. -/
theorem exec_error {t : State} {i : Instr} (h : exec i s = .next t) (herr : s.ps.error = .ok)
    (hphase : s.ps.phase.toNat ≤ 4) : t.ps.error = .ok := by
  by_cases hi : i = .init ∨ i = .reset
  case pos =>
    obtain ⟨⟨tag, hps⟩, _⟩ := Writers.exec_init_or_reset hi h
    rw [hps]
    rfl
  by_contra hne
  obtain rfl := Writers.error_writer h hi (by rwa [herr])
  obtain ⟨c, _, ht⟩ := selected_next (show execBadphase s = .next t from h)
  split at ht
  case isTrue hbad =>
    have : 5 ≤ s.ps.phase.toNat := of_decide_eq_true hbad.1
    omega
  case isFalse => cases ht

/-- The count of an EXECUTE is that of its buffer, which fits `CNT_W` bits. -/
theorem exec_count {t : State} {i : Instr} (h : exec i s = .next t) (hwf : i.wf s.params = true)
    (hs : ∀ c, s.ctx = some c → c.n < 2 ^ s.params.cntW) : ∀ c, t.ctx = some c → c.n < 2 ^ s.params.cntW := by
  intro c hc
  cases exec_move h with
  | proceeds i c' hc' hp =>
    obtain hend | ⟨c'', hc'', hn, _⟩ := hp
    · simp [hend.1] at hc
    · obtain rfl : c'' = c := by simpa [hc''] using hc
      exact hn ▸ hs c' hc'
  | suspends c' p hc' _ _ ht =>
    obtain rfl : { c' with wait := .suspended p } = c := by simpa [ht] using hc
    exact hs c' hc'
  | errs _ _ hend | aborts _ _ _ hend => simp [hend.1] at hc
  | begins buf _ ht =>
    obtain ht | ⟨_, ht⟩ := ht
    · simp [ht] at hc
    · obtain rfl := Option.some.inj (ht.symm.trans hc)
      exact of_decide_eq_true hwf
  | stays _ ht => exact hs c (ht ▸ hc)
  | resets ht => simp [ht] at hc

theorem exec_inv {t : State} {i : Instr} (h : exec i s = .next t) (hwf : i.wf s.params = true)
    (hs : s.inv = true) : t.inv = true := by
  obtain ⟨⟨hok, htag, herr, hphase⟩, hcur, hcount, hshape⟩ := inv_iff.mp hs
  obtain ⟨hparams, _⟩ := Writers.exec_keeps_params_inbox h
  refine inv_iff.mpr ⟨⟨?_, ?_, exec_error h herr hphase, Writers.effect_phase_valid (exec_effect h) hphase⟩,
    (exec_move h).keepsCursor hcur, ?_, effect_shaped (exec_effect h) hshape herr hphase hcur⟩
  · rwa [hparams]
  · rw [hparams]
    exact exec_tag_lt h htag
  · rw [hparams]
    exact exec_count h hwf hcount

end

/-- Settles O46: what is fetched is decoded to a well-formed instruction, which keeps the invariant; the cursor
excludes a loop that ends with no byte left. -/
theorem stepKeepsInvariant : Obligations.StepKeepsInvariant := by
  unfold Obligations.StepKeepsInvariant
  intro s t hs hstep
  obtain rfl | ⟨c, hc, _, hrest, _⟩ | ⟨e, i, s', hdecode, hexec, hs'⟩ := step_cases hstep
  · exact hs
  · obtain ⟨_, hcur, _⟩ := inv_iff.mp hs
    exact absurd hrest (cursorOk_pending (hcur c hc)).1
  · have hwf : i.wf s.params = true := Encoding.decodeYieldsWellFormed _ _ _ hdecode
    -- the invariant does not speak of the inbox
    obtain rfl | ⟨rs, rfl⟩ := hs' <;> exact exec_inv hexec hwf hs

/-- Settles O45: State.reset is a closed term. -/
theorem resetMeetsInvariant : Obligations.ResetMeetsInvariant := by
  unfold Obligations.ResetMeetsInvariant
  decide

end Sys2Proof.Invariant

/-! What the fetch brings and what each parser step does where it is selected (R95, R111, R116 to R123), and how
the steps and events are refused elsewhere. -/

namespace Sys2Proof.ParserSteps

open Sys2Proof Sys2Proof.Machine

/-! ### The fetch (R59, R111, R112) -/

section
variable {s : State} {c : ExecCtx}

theorem fetch_quiet (h : s.ctx = none ∨ Suspended s) : fetch s = fetchHost s := by
  obtain hc | ⟨c, p, hc, hw⟩ := h
  · simp [fetch, hc]
  · simp [fetch, hc, hw]

theorem step_host {r : HostRecord} {rs : List HostRecord} {i : Instr} (h : s.ctx = none ∨ Suspended s)
    (hin : s.inbox = r :: rs) (hd : decode s.params (.host r) = .ok i) :
    step s = exec i { s with inbox := rs } := by
  simp [step, fetch_quiet h, fetchHost, hin, runFetched, hd]

theorem step_waits (h : s.ctx = none ∨ Suspended s) (hin : s.inbox = []) : step s = .next s := by
  simp [step, fetch_quiet h, fetchHost, hin, runFetched]

theorem step_emitting {p : EmitPoint} (hc : s.ctx = some c) (hw : c.wait = .emitting p) :
    step s = exec p.instr s := by
  have hfetch : fetch s = .word (.event (eventCode p.kind)) s := by simp [fetch, hc, hw]
  rw [step, hfetch]
  cases p <;> rfl

theorem fetch_running (hc : s.ctx = some c) (hw : c.wait = .running) (hr : c.rest ≠ []) :
    fetch s = .word (.step s.ps.phase (bytesInFront s.ps c.rest)) s := by simp [fetch, hc, hw, hr]

theorem step_running {i : Instr} (hc : s.ctx = some c) (hw : c.wait = .running) (hr : c.rest ≠ [])
    (hd : decode s.params (.step s.ps.phase (bytesInFront s.ps c.rest)) = .ok i) : step s = exec i s := by
  rw [step, fetch_running hc hw hr, runFetched, hd]

theorem step_loopEnd (hc : s.ctx = some c) (hw : c.wait = .running) (hr : c.rest = []) :
    step s = .next (finish c.n s) := by simp [step, fetch, hc, hw, hr, runFetched]

end

/-- Settles O7: one clause for each thing that can be fetched. -/
theorem stepRunsDecodedInstruction : Obligations.StepRunsDecodedInstruction := by
  unfold Obligations.StepRunsDecodedInstruction
  intro s i
  refine ⟨fun r rs h hin hd => step_host h hin hd, step_waits, fun c hc hw => step_emitting hc hw,
    fun c k hc hw => step_emitting hc hw, fun c k hc hw => step_emitting hc hw, ?running⟩
  case running =>
    intro c bytes hc hw hr hbytes hd
    have hfront : bytes = bytesInFront s.ps c.rest := by simp [hbytes, bytesInFront, invalidPhase, runLength]
    exact step_running hc hw hr (hfront ▸ hd)

/-- Settles O8: the loop of R111 is left with `n`. -/
theorem loopEndReturnsN : Obligations.LoopEndReturnsN := by
  unfold Obligations.LoopEndReturnsN
  intro s c hc hw hr
  exact ⟨_, step_loopEnd hc hw hr, rfl, ⟨rfl, rfl, rfl, rfl, rfl⟩, finish_ended c.n s⟩

/-! ### The steps where they are selected -/

section
variable {s : State} {c : ExecCtx}

/-- R117. -/
theorem exec_headS7_of {mask : Bool} {len7 : BitVec 7} (h : Selects s c phaseHead [b1Byte mask len7])
    (hlen : len7.toNat ≤ 125) : exec (.headS7 mask len7) s =
      .next (postLength c (s.withPs { s.ps with hasMask := mask, length := shortLength len7 })) :=
  (selected_of _ h).trans (if_pos (decide_eq_true hlen))

/-- Where its condition holds, `requires` is transparent. -/
theorem requires_of {p : Prop} [Decidable p] (act : Result) (h : p) : requires p act = act := if_pos h

theorem requires_refused {p : Prop} [Decidable p] (act : Result) (h : ¬ p) :
    requires p act = .refused .unreachableState := if_neg h

/-- R120, bytes still to come. -/
theorem exec_lenb_more {e : Byte} (h : Selects s c phaseLength [e]) (hpos : 1 ≤ s.ps.remaining.toNat)
    (hle : s.ps.remaining.toNat ≤ 8) (hmore : s.ps.remaining ≠ 1) : exec (.lenb e) s =
      .next (advance 1 c (s.withPs { s.ps with
        length := accumulateLength s.ps.length e, remaining := s.ps.remaining - 1 })) := by
  have hne : ¬ s.ps.remaining - 1 = 0 := fun h0 => hmore ((counter_last hpos).mp h0)
  exact (selected_of _ h).trans ((requires_of _ ⟨hpos, hle⟩).trans (congrArg Host.Outcome.next (if_neg hne)))

/-- R120, the last byte. -/
theorem exec_lenb_last {e : Byte} (h : Selects s c phaseLength [e]) (hlast : s.ps.remaining = 1) :
    exec (.lenb e) s = .next (postLength c (s.withPs { s.ps with
      length := accumulateLength s.ps.length e, remaining := 0 })) := by
  refine (selected_of _ h).trans ((requires_of _ (by simp [hlast])).trans ?_)
  simp [hlast]

/-- R121, key bytes still to come. -/
theorem exec_maskb_more {k : Byte} (h : Selects s c phaseMask [k]) (hpos : 1 ≤ s.ps.remaining.toNat)
    (hle : s.ps.remaining.toNat ≤ 4) (hmore : s.ps.remaining ≠ 1) : exec (.maskb k) s =
      .next (advance 1 c (s.withPs { s.ps with
        maskKey := setKeyByte s.ps.maskKey (4 - s.ps.remaining.toNat) k,
        remaining := s.ps.remaining - 1 })) := by
  have hne : ¬ s.ps.remaining - 1 = 0 := fun h0 => hmore ((counter_last hpos).mp h0)
  exact (selected_of _ h).trans ((requires_of _ ⟨hpos, hle⟩).trans (congrArg Host.Outcome.next (if_neg hne)))

/-- R121, the fourth key byte. -/
theorem exec_maskb_last {k : Byte} (h : Selects s c phaseMask [k]) (hlast : s.ps.remaining = 1) :
    exec (.maskb k) s = .next (postMask c (s.withPs { s.ps with
      maskKey := setKeyByte s.ps.maskKey 3 k, remaining := 0 })) := by
  refine (selected_of _ h).trans ((requires_of _ (by simp [hlast])).trans ?_)
  simp [hlast]

/-- R122. -/
theorem exec_bodyrun_of {p : List Byte} (h : Selects s c phaseBody p) (hne : p ≠ [])
    (hpos : 1 ≤ s.ps.remaining.toNat) (hlen : p.length = runLength s.ps.remaining c.rest.length) :
    exec (.bodyrun p) s = .next (reachEmit (.body p.length) c s) :=
  (selected_of _ h).trans ((requires_of _ hpos).trans (if_pos ⟨hlen, hne⟩))

end

/-! ### The arms of PostLength and PostMask (R114, R115) -/

theorem postMask_reaches (c : ExecCtx) (s : State) : ReachesEmit .header c s (postMask c s) := by
  unfold postMask
  split <;> exact ⟨rfl, rfl⟩

theorem postMask_reaches_zero {s : State} (c : ExecCtx) (h : s.ps.length = 0) :
    (postMask c s).ps = s.ps ∧ ReachesEmit .header c s (postMask c s) :=
  ⟨by rw [postMask_ps, if_pos h], postMask_reaches c s⟩

theorem postMask_reaches_body {s : State} (c : ExecCtx) (h : s.ps.length ≠ 0) :
    (postMask c s).ps = { s.ps with phase := phaseBody, remaining := s.ps.length } ∧
    ReachesEmit .header c s (postMask c s) :=
  ⟨by rw [postMask_ps, if_neg h], postMask_reaches c s⟩

theorem postLength_advances {s : State} (c : ExecCtx) (h : s.ps.hasMask = true) :
    (postLength c s).ps = { s.ps with phase := phaseMask, remaining := 4 } ∧
    AdvancedBy 1 c s (postLength c s) := by
  rw [postLength_masked c h]
  exact ⟨by simp, advance_withPs_advancedBy 1 c s _⟩

theorem postLength_reaches_body {s : State} (c : ExecCtx) (hmask : s.ps.hasMask = false)
    (h : s.ps.length ≠ 0) :
    (postLength c s).ps = { s.ps with phase := phaseBody, remaining := s.ps.length } ∧
    ReachesEmit .header c s (postLength c s) := by
  rw [postLength_unmasked c hmask]
  exact postMask_reaches_body c h

theorem postLength_reaches_zero {s : State} (c : ExecCtx) (hmask : s.ps.hasMask = false)
    (h : s.ps.length = 0) :
    (postLength c s).ps = { s.ps with length := 0 } ∧ ReachesEmit .header c s (postLength c s) := by
  rw [postLength_unmasked c hmask, ← h]
  exact postMask_reaches_zero c h

theorem shortLength_eq (len7 : BitVec 7) : shortLength len7 = BitVec.ofNat 64 len7.toNat :=
  Invariant.zeroExtend_eq_ofNat len7

theorem shortLength_ne_zero {len7 : BitVec 7} (h : len7 ≠ 0) : shortLength len7 ≠ 0 := by
  rw [shortLength_eq]
  have := len7.isLt
  bv_omega

/-- Settles O10: HEAD.S7 is the write of its two fields and PostLength. -/
theorem headS7Result : Obligations.HeadS7Result := by
  unfold Obligations.HeadS7Result
  intro s c mask len7 hlen hsel
  refine ⟨_, exec_headS7_of hsel hlen, postLength_sameHost c (s.withPs _), ?masked, ?body, ?zero⟩
  case masked =>
    rintro rfl
    rw [← shortLength_eq]
    exact postLength_advances c rfl
  case body =>
    rintro rfl hne
    rw [← shortLength_eq]
    exact postLength_reaches_body c rfl (shortLength_ne_zero hne)
  case zero =>
    rintro rfl rfl
    exact postLength_reaches_zero c rfl rfl

theorem accumulateLength_eq (length : Word64) (e : Byte) :
    accumulateLength length e = (length <<< 8) ||| BitVec.ofNat 64 e.toNat := by
  rw [accumulateLength, Invariant.zeroExtend_eq_ofNat]

/-- Settles O12: LENB counts down, and on the last byte is PostLength. -/
theorem lenbResult : Obligations.LenbResult := by
  unfold Obligations.LenbResult
  intro s c e len hsel hpos hle hlen
  rw [← accumulateLength_eq] at hlen
  subst hlen
  by_cases hlast : s.ps.remaining = 1
  case neg =>
    refine ⟨_, exec_lenb_more hsel hpos hle hlast, advance_withPs_sameHost 1 c s _,
      fun _ => ⟨by simp, advance_withPs_advancedBy 1 c s _⟩, ?_, ?_, ?_⟩ <;> exact fun h => absurd h hlast
  case pos =>
    refine ⟨_, exec_lenb_last hsel hlast, postLength_sameHost c (s.withPs _), fun h => absurd hlast h,
      fun _ hmask => postLength_advances c hmask, fun _ hmask hne => postLength_reaches_body c hmask hne,
      fun _ hmask hzero => postLength_reaches_zero c hmask hzero⟩

/-- Settles O13: MASKB counts down, and on the fourth byte is PostMask. -/
theorem maskbResult : Obligations.MaskbResult := by
  unfold Obligations.MaskbResult
  intro s c k key hsel hkey
  have hbounds : 1 ≤ s.ps.remaining.toNat ∧ s.ps.remaining.toNat ≤ 4 := by
    rcases hkey with ⟨h, _⟩ | ⟨h, _⟩ | ⟨h, _⟩ | ⟨h, _⟩ <;> simp [h]
  have hset : key = setKeyByte s.ps.maskKey (4 - s.ps.remaining.toNat) k := by
    rcases hkey with ⟨h, hk⟩ | ⟨h, hk⟩ | ⟨h, hk⟩ | ⟨h, hk⟩ <;> rw [hk, h] <;> rfl
  subst hset
  by_cases hlast : s.ps.remaining = 1
  case neg =>
    refine ⟨_, exec_maskb_more hsel hbounds.1 hbounds.2 hlast, advance_withPs_sameHost 1 c s _,
      fun _ => ⟨by simp, advance_withPs_advancedBy 1 c s _⟩, ?_, ?_⟩ <;> exact fun h => absurd h hlast
  case pos =>
    rw [show 4 - s.ps.remaining.toNat = 3 by simp [hlast]]
    exact ⟨_, exec_maskb_last hsel hlast, postMask_sameHost c (s.withPs _), fun h => absurd hlast h,
      fun _ hne => postMask_reaches_body c hne, fun _ hzero => postMask_reaches_zero c hzero⟩

/-- Settles O14: BODYRUN moves nothing but the context to its emission point. -/
theorem bodyrunResult : Obligations.BodyrunResult := by
  unfold Obligations.BodyrunResult
  intro s c p hsel hne hpos hlen
  exact ⟨_, exec_bodyrun_of hsel hne hpos hlen, rfl, ⟨rfl, rfl, rfl, rfl, rfl⟩, ⟨rfl, rfl⟩⟩

/-- Settles O15: BADPHASE is the exceptional outcome UnknownState. -/
theorem badphaseResult : Obligations.BadphaseResult := by
  unfold Obligations.BadphaseResult
  intro s c hc hw hr hphase
  exact ⟨_, Exceptions.exec_badphase_of ⟨hc, hw, rfl, List.nil_prefix⟩ hr hphase,
    Exceptions.unknownState_ps c s, Exceptions.unknownState_sameHost c s, Exceptions.unknownState_ended c s⟩

/-! ### Refusals of steps and events -/

section
variable {s : State}

theorem selected_refused {ph : BitVec 3} {bytes : List Byte} {act : ExecCtx → Result}
    (h : ∀ c, ¬ Selects s c ph bytes) : selected ph bytes s act = .refused .notSelected := by
  unfold selected
  split
  case h_1 c hc =>
    split
    case isTrue hg =>
      exact absurd ⟨hc, hg.1, hg.2.1, List.isPrefixOf_iff_prefix.mp hg.2.2⟩ (h c)
    case isFalse => rfl
  case h_2 => rfl

theorem atEmit_refused {k : EventKind} (h : ∀ c p, s.ctx = some c → c.wait = .emitting p → p.kind ≠ k) :
    atEmit k s = .refused .notSelected := by
  unfold atEmit
  split
  case h_1 c hc =>
    split
    case h_1 p hw => rw [if_neg (h c p hc hw)]
    case h_2 | h_3 => rfl
  case h_2 => rfl

/-- R117 is not selected by the sentinels. -/
theorem exec_headS7_refused {mask : Bool} {len7 : BitVec 7}
    (h : (∀ c, ¬ Selects s c phaseHead [b1Byte mask len7]) ∨ 126 ≤ len7.toNat) :
    exec (.headS7 mask len7) s = .refused .notSelected := by
  by_cases hsel : ∃ c, Selects s c phaseHead [b1Byte mask len7]
  case pos =>
    obtain ⟨c, hsel⟩ := hsel
    have hlen : 126 ≤ len7.toNat := h.resolve_left fun hno => hno c hsel
    have hno : ¬ len7Ok len7 = true := by
      rw [len7Ok, decide_eq_true_iff]
      omega
    exact (selected_of _ hsel).trans (if_neg hno)
  case neg => exact selected_refused (not_exists.mp hsel)

theorem exec_badphase_refused
    (h : s.ps.phase.toNat ≤ 4 ∨ ∀ c, s.ctx = some c → c.wait ≠ .running ∨ c.rest = []) :
    exec .badphase s = .refused .notSelected := by
  by_cases hsel : ∃ c, Selects s c s.ps.phase []
  case pos =>
    obtain ⟨c, hsel⟩ := hsel
    refine (selected_of _ hsel).trans (if_neg ?_)
    rintro ⟨hinvalid, hrest⟩
    have h5 : 5 ≤ s.ps.phase.toNat := of_decide_eq_true hinvalid
    obtain hvalid | hno := h
    · omega
    · exact (hno c hsel.1).elim (absurd hsel.2.1) hrest
  case neg => exact selected_refused (not_exists.mp hsel)

end

/-- Settles O16: the guards of the steps and of the events refuse by one name. -/
theorem unselectedIsRefused : Obligations.UnselectedIsRefused := by
  unfold Obligations.UnselectedIsRefused
  intro s
  refine ⟨fun _ _ _ h => selected_refused h, fun _ _ h => exec_headS7_refused h, fun _ h => selected_refused h,
    fun _ h => selected_refused h, fun _ h => selected_refused h, fun _ h => selected_refused h,
    fun _ h => selected_refused h, exec_badphase_refused, fun h => atEmit_refused ?header,
    fun h => atEmit_refused ?body, fun h => atEmit_refused ?frameEnd⟩
  case header =>
    rintro c (_ | k | k) hc hw
    · exact absurd hw (h c hc)
    all_goals simp [EmitPoint.kind]
  case body =>
    rintro c (_ | k | k) hc hw
    case body => exact absurd hw (h c k hc)
    all_goals simp [EmitPoint.kind]
  case frameEnd =>
    rintro c (_ | k | k) hc hw
    case frameEnd => exact absurd hw (h c k hc)
    all_goals simp [EmitPoint.kind]

/-- Settles O17: where the guard lets the step in, `requires` or the run's length refuses it. -/
theorem requirementFailureIsRefused : Obligations.RequirementFailureIsRefused := by
  unfold Obligations.RequirementFailureIsRefused
  intro s c b p
  refine ⟨fun hsel h => ?lenb, fun hsel h => ?maskb, fun hsel h => ?bodyrun, fun hsel hne h => ?run⟩
  case lenb => exact (selected_of _ hsel).trans (requires_refused _ (by omega))
  case maskb => exact (selected_of _ hsel).trans (requires_refused _ (by omega))
  case bodyrun => exact (selected_of _ hsel).trans (requires_refused _ (by simp [h]))
  case run =>
    have hpos : 1 ≤ s.ps.remaining.toNat := by bv_omega
    have hno : ¬ (p.length = runLength s.ps.remaining c.rest.length ∧ p ≠ []) := by
      rintro ⟨hlen, hnil⟩
      exact h.elim hnil (absurd hlen)
    exact (selected_of _ hsel).trans ((requires_of _ hpos).trans (if_neg hno))

end Sys2Proof.ParserSteps

/-! The events and their answers (R112, R124, R125, R127, R129, R174, R194). -/

namespace Sys2Proof.Events

open Sys2Proof Sys2Proof.Machine

section
variable {s : State} {c : ExecCtx} {p : EmitPoint}

/-! ### An event at its emission point -/

theorem exec_event_of (hc : s.ctx = some c) (hw : c.wait = .emitting p) :
    exec p.instr s = .next (emit p c s) := by
  cases p <;> exact atEmit_of hc hw

/-- An enabled event: one EVT record with its run, and the parser suspended. -/
theorem emit_sends (hen : eventEnabled s.cbEn p.kind = true) :
    (emit p c s).ps = s.ps ∧ SameHost s (emit p c s) ∧
    (emit p c s).ctx = some { c with wait := .suspended p } ∧
    (emit p c s).out = s.out ++ [.evt (evtRecord p s) (evtData p c)] := by
  rw [emit_enabled c hen]
  exact ⟨rfl, ⟨rfl, rfl, rfl, rfl, rfl⟩, rfl, rfl⟩

end

/-- Settles O18: the HEADER record copies the frame's fields. -/
theorem headerEventResult : Obligations.HeaderEventResult := by
  unfold Obligations.HeaderEventResult
  intro s c hc hw hen
  obtain ⟨hps, hhost, hctx, hout⟩ := emit_sends (s := s) (c := c) (p := .header) hen
  exact ⟨_, _, exec_event_of hc hw, hps, hhost, hctx, hout, rfl, rfl, rfl, rfl, rfl, rfl⟩

/-- Settles O19: the BODY record has the offset, and EDATA the run. -/
theorem bodyEventResult : Obligations.BodyEventResult := by
  unfold Obligations.BodyEventResult
  intro s c k hc hw hen
  obtain ⟨hps, hhost, hctx, hout⟩ := emit_sends (s := s) (c := c) (p := .body k) hen
  exact ⟨_, _, exec_event_of hc hw, hps, hhost, hctx, hout, rfl, rfl, rfl⟩

/-- Settles O20: END carries no operand. -/
theorem endEventResult : Obligations.EndEventResult := by
  unfold Obligations.EndEventResult
  intro s c k hc hw hen
  obtain ⟨hps, hhost, hctx, hout⟩ := emit_sends (s := s) (c := c) (p := .frameEnd k) hen
  exact ⟨_, _, exec_event_of hc hw, hps, hhost, hctx, hout, rfl⟩

section
variable {s : State} {c : ExecCtx} {p : EmitPoint}

/-! ### The answer -/

theorem exec_continue_of (h : SuspendedAt s c p) (he : EventState s) :
    exec (.evtRsp false) s = .next (continueFrom p c s) := execEvtRsp_of false h he

theorem exec_abort_of (h : SuspendedAt s c p) (he : EventState s) :
    exec (.evtRsp true) s = .next (callbackAbort p c s) := execEvtRsp_of true h he

/-- Continue reads neither the outstanding event nor the context of the state. -/
theorem continueFrom_withWait (w w' : Wait) (x : Option ExecCtx) :
    continueFrom p { c with wait := w } (s.withCtx x) = continueFrom p { c with wait := w' } s := by
  have hadvance (k : Nat) (q : ParserState) :
      advance k { c with wait := w } ((s.withCtx x).withPs q) = advance k { c with wait := w' } (s.withPs q) := by
    unfold advance
    split <;> rfl
  cases p with
  | header => exact if_congr Iff.rfl rfl (hadvance 1 s.ps)
  | body k => exact if_congr Iff.rfl rfl (hadvance k (Invariant.afterRun s.ps k))
  | frameEnd k => exact hadvance k (enterStart s.ps)

theorem continueFrom_sameHost : SameHost s (continueFrom p c s) := by simp [SameHost]

end

/-- Settles O21: both sides are `continueFrom`, and the state at the event is the same before it and while it is
outstanding. -/
theorem disabledEventIsContinue : Obligations.DisabledEventIsContinue := by
  unfold Obligations.DisabledEventIsContinue
  intro s c p hc he hdisabled
  have he' : EventState (s.withCtx (some { c with wait := .suspended p })) := by
    have hat : atEvent (s.withCtx (some { c with wait := .suspended p })) = atEvent s := by simp [atEvent, hc]
    simpa [EventState, hat] using he
  have hanswer : exec (.evtRsp false) (s.withCtx (some { c with wait := .suspended p })) = exec p.instr s := by
    rw [exec_continue_of ⟨rfl, rfl⟩ he', exec_event_of hc rfl, emit_disabled _ hdisabled]
    exact congrArg _ (continueFrom_withWait _ _ _)
  refine Eq.trans ?_ hanswer.symm
  cases p <;> rfl

/-- Settles O22: after HEADER the frame goes on, or is at its END when it is empty. -/
theorem continueAfterHeader : Obligations.ContinueAfterHeader := by
  unfold Obligations.ContinueAfterHeader
  intro s c hs he
  refine ⟨_, exec_continue_of hs he, continueFrom_ps .header c s, continueFrom_sameHost, fun hne => ?_,
    fun hzero => ?_⟩
  · rw [continueFrom, if_neg hne]
    exact advance_advancedBy 1 c s
  · rw [continueFrom, if_pos hzero]
    exact ⟨rfl, rfl⟩

/-- Settles O23: after BODY the counters move by the run, and the frame ends when `remaining` reaches 0. -/
theorem continueAfterBody : Obligations.ContinueAfterBody := by
  unfold Obligations.ContinueAfterBody
  intro s c k hs he hk
  have hsub : s.ps.remaining - BitVec.ofNat 64 k = BitVec.ofNat 64 (s.ps.remaining.toNat - k) := by bv_omega
  refine ⟨_, exec_continue_of hs he, continueFrom_sameHost, ?ps, fun hlt => ?more, fun heq => ?ends⟩
  case ps => rw [continueFrom_ps, ← hsub]
  case more =>
    have hne : ¬ (Invariant.afterRun s.ps k).remaining = 0 := by
      simp only [Invariant.afterRun]
      bv_omega
    rw [Invariant.continueFrom_body, if_neg hne]
    exact ParserSteps.advance_withPs_advancedBy k c s _
  case ends =>
    have hzero : (Invariant.afterRun s.ps k).remaining = 0 := by
      simp only [Invariant.afterRun]
      bv_omega
    rw [Invariant.continueFrom_body, if_pos hzero]
    exact ⟨rfl, rfl⟩

/-- Settles O24: after END comes EnterStart and the cursor. -/
theorem continueAfterEnd : Obligations.ContinueAfterEnd := by
  unfold Obligations.ContinueAfterEnd
  intro s c k hs he
  exact ⟨_, exec_continue_of hs he, continueFrom_sameHost, continueFrom_ps (.frameEnd k) c s,
    ParserSteps.advance_withPs_advancedBy k c s _⟩

/-- Settles O25: Abort is the exceptional outcome CallbackAbort, whose count is `pos + abortOffset`. -/
theorem abortResult : Obligations.AbortResult := by
  unfold Obligations.AbortResult
  intro s c p hs he
  have hend : EndedWith (c.pos + abortOffset p) s (callbackAbort p c s) :=
    finish_ended _ { s with aborted := true }
  refine ⟨_, exec_abort_of hs he, rfl, rfl, rfl, rfl, rfl, rfl, ?_, ?_, ?_⟩
  · rintro rfl
    exact hend
  · rintro k rfl
    exact hend
  · rintro k rfl
    exact hend

end Sys2Proof.Events

/-! Masking in parts (R152 to R154): the transform and the rotation over a concatenation, and MASK_BOUND over two
calls and over the BODY events of a frame. -/

namespace Sys2Proof.MaskTransform

open Sys2Proof Sys2Proof.Machine

theorem nextRotation_add (rot : BitVec 2) (m n : Nat) :
    nextRotation (nextRotation rot m) n = nextRotation rot (m + n) := by
  apply BitVec.eq_of_toNat_eq
  simp only [nextRotation_toNat]
  omega

theorem maskParts_snd (key : Key) (rot : BitVec 2) (parts : List (List Byte)) :
    (maskParts key rot parts).2 = nextRotation rot parts.flatten.length := by
  induction parts generalizing rot with
  | nil => simp [maskParts, nextRotation]
  | cons p ps ih => rw [maskParts_cons, ih, nextRotation_add, List.flatten_cons, List.length_append]

/-- Settles O39: the bytes are those of the concatenation, and the rotations add up. -/
theorem maskSplitInvariance : Obligations.MaskSplitInvariance := by
  unfold Obligations.MaskSplitInvariance
  intro key rot parts
  exact Prod.ext (maskParts_fst key rot parts) (maskParts_snd key rot parts)

/-! ### MASK_BOUND -/

/-- A MASK_BOUND that answers next writes the rotation alone, and sends the bytes and the new rotation. -/
theorem exec_maskBound_next {src : List Byte} {s t : State} (h : exec (.maskBound src) s = .next t) :
    t.ps = { s.ps with maskRotation := nextRotation s.ps.maskRotation src.length } ∧ t.ctx = s.ctx ∧
    SameHost s t ∧ ∃ rsp, t.out = s.out ++ [.dout (maskBytes s.ps.maskKey s.ps.maskRotation src), .rsp rsp] ∧
      rsp.newRot = nextRotation s.ps.maskRotation src.length := by
  obtain ⟨_, _, rfl⟩ := execMaskBound_next (show execMaskBound src s = .next t from h)
  refine ⟨rfl, rfl, ⟨rfl, rfl, rfl, rfl, rfl⟩, ?_⟩
  exact maskTransaction_out s.ps.maskKey s.ps.maskRotation src (s.withPs _)

/-- Settles O41: the second call starts from the rotation the first one leaves. -/
theorem maskBoundSplit : Obligations.MaskBoundSplit := by
  unfold Obligations.MaskBoundSplit
  intro s s1 s2 u p1 p2 h1 h2 h
  obtain ⟨hps1, hctx1, hhost1, r1, hout1, _⟩ := exec_maskBound_next h1
  obtain ⟨hps2, hctx2, hhost2, r2, hout2, hr2⟩ := exec_maskBound_next h2
  obtain ⟨hps, hctx, hhost, r, hout, hr⟩ := exec_maskBound_next h
  have hsame : SameHost u s2 :=
    Writers.sameHost_trans (Writers.sameHost_symm hhost) (Writers.sameHost_trans hhost1 hhost2)
  rw [hps1, nextRotation_add, ← List.length_append] at hps2 hr2
  refine ⟨by rw [hps2, hps], by rw [hctx2, hctx1, hctx], hsame, maskBytes s.ps.maskKey s.ps.maskRotation p1,
    maskBytes s1.ps.maskKey s1.ps.maskRotation p2, r1, r2, r, ?_, ?_, hr2.trans hr.symm⟩
  · rw [hout2, hout1, List.append_assoc]
    rfl
  · rw [hout, maskBytes_append, hps1]

/-- Settles O42: the call moves the rotation and Continue the offset, both by the run. -/
theorem rotationFollowsOffset : Obligations.RotationFollowsOffset := by
  unfold Obligations.RotationFollowsOffset
  intro s s1 t c k hs hk hrot hmask hcontinue
  obtain ⟨hps1, hctx1, _⟩ := exec_maskBound_next hmask
  obtain ⟨c', p, ⟨hc', hw'⟩, _, ht⟩ := execEvtRsp_next (show execEvtRsp false s1 = .next t from hcontinue)
  obtain rfl : c = c' := by simpa [hctx1, hs.1] using hc'
  obtain rfl : EmitPoint.body k = p := Wait.suspended.inj (hs.2.symm.trans hw')
  have hps : t.ps = (continueFrom (.body k) c s1).ps := congrArg State.ps ht
  rw [continueFrom_ps, hps1] at hps
  have hlen : (c.rest.take k).length = k := List.length_take_of_le hk
  rw [hps]
  simp only [nextRotation_toNat, hlen, BitVec.toNat_add, BitVec.toNat_ofNat]
  omega

end Sys2Proof.MaskTransform

/-! The operations of the host where the table of R175 admits and refuses them (R110, R151, R152, R170 to R175,
R220). -/

namespace Sys2Proof.HostOps

open Sys2Proof Sys2Proof.Machine

section
variable {s : State}

/-! ### The columns of the table -/

theorem condition_idleAborted (hc : s.ctx = none) (hab : s.aborted = true) : condition s = .idleAborted := by
  rw [condition_idle hc, if_pos hab]

theorem condition_idleError (hc : s.ctx = none) (hab : s.aborted = false)
    (h : s.ps.error = .unknownState ∨ 5 ≤ s.ps.phase.toNat) : condition s = .idleError := by
  simp [condition_idle hc, hab, invalidPhase, h]

/-- A valid phase and no error leave the last three columns. -/
theorem condition_idleValid (hc : s.ctx = none) (hab : s.aborted = false) (herr : s.ps.error = .ok)
    (hphase : s.ps.phase.toNat ≤ 4) : condition s =
      if wf s.ps then .idle else if wfCore s.ps then .idleOutOfStep else .idleUnreachable := by
  have h5 : ¬ 5 ≤ s.ps.phase.toNat := by omega
  simp [condition_idle hc, hab, herr, invalidPhase, h5]

theorem phase_le_of_wfCore {p : ParserState} (h : wfCore p = true) : p.phase.toNat ≤ 4 := by
  have := (wfCore_valid h).2
  simp only [invalidPhase, decide_eq_false_iff_not] at this
  omega

theorem condition_idleWf (hc : s.ctx = none) (hab : s.aborted = false) (hwf : wf s.ps = true) :
    condition s = .idle := by
  have hcore := wfCore_of_wf hwf
  rw [condition_idleValid hc hab (wfCore_valid hcore).1 (phase_le_of_wfCore hcore), if_pos hwf]

/-- What the table admits in the column the state is in runs. -/
theorem admitted_in {op : HostOp} {x : Condition} (act : Result) (h : condition s = x)
    (ha : admits op x = true) : admitted op s act = act := admitted_of act (h ▸ ha)

/-- Everything else is refused there by the column's name. -/
theorem refused_in {op : HostOp} {x : Condition} {act : Result} (h : condition s = x)
    (ha : admits op x = false) : admitted op s act = .refused (refusalOf op x) := by
  subst h
  exact admitted_refused act ha

/-! ### INIT, SETTINGS, EXECUTE -/

theorem admits_init (hc : s.ctx = none) : admits .init (condition s) = true := by
  rw [condition_idle hc]
  split <;> [skip; split <;> [skip; split <;> [skip; split]]] <;> rfl

theorem exec_init_of (hc : s.ctx = none) :
    exec .init s = .next (respond none none { s with ps := initialised s.ps, aborted := false }) :=
  admitted_of _ (admits_init hc)

theorem exec_execute_nil (htable : IdleInTable s) (hab : s.aborted = false) :
    exec (.execute []) s = .next (finish 0 s) :=
  admitted_of _ ((admits_inTable htable).2.2 hab)

theorem exec_execute_of (buf : List Byte) (htable : IdleInTable s) (hab : s.aborted = false) :
    ∃ t, exec (.execute buf) s = .next t := by
  cases buf with
  | nil => exact ⟨_, exec_execute_nil htable hab⟩
  | cons b p => exact ⟨_, Exceptions.exec_execute_cons b p htable hab⟩

end

/-- Settles O26: INIT is one write and a completion with free fields. -/
theorem initResult : Obligations.InitResult := by
  unfold Obligations.InitResult
  intro s hc
  exact ⟨_, exec_init_of hc, rfl, rfl, rfl, rfl, hc, rfl, rfl, _, rfl⟩

/-- Settles O27: SETTINGS is one write and a completion with free fields. -/
theorem settingsResult : Obligations.SettingsResult := by
  unfold Obligations.SettingsResult
  intro s cb htable
  exact ⟨_, admitted_of _ (admits_inTable htable).1, rfl, rfl, rfl, rfl, htable.1, rfl, rfl, _, rfl⟩

/-- Settles O28: an empty buffer completes at once, any other starts the loop at 0. -/
theorem executeResult : Obligations.ExecuteResult := by
  unfold Obligations.ExecuteResult
  intro s buf htable hab
  cases buf with
  | nil =>
    exact ⟨_, exec_execute_nil htable hab, rfl, ⟨rfl, rfl, rfl, rfl, rfl⟩, fun _ => finish_ended 0 s,
      fun h => absurd rfl h⟩
  | cons b p =>
    exact ⟨_, Exceptions.exec_execute_cons b p htable hab, rfl, ⟨rfl, rfl, rfl, rfl, rfl⟩,
      fun h => absurd h (List.cons_ne_nil b p), fun _ => ⟨rfl, rfl⟩⟩

/-! ### Masking -/

theorem maskBytes_getD (key : Key) (rot : BitVec 2) (src : List Byte) {i : Nat} (h : i < src.length) :
    (maskBytes key rot src).getD i 0 = src.getD i 0 ^^^ keyAt key ((i + rot.toNat) % 4) := by
  simp [maskBytes, h, keyByte_eq_keyAt]

section
variable {s : State}

/-- MASK_FREE is admitted in the table's idle columns and while an event is outstanding. -/
theorem admits_maskFree (h : IdleInTable s ∨ Suspended s ∧ EventState s) :
    admits .maskFree (condition s) = true := by
  obtain htable | ⟨hs, he⟩ := h
  · exact (admits_inTable htable).2.1
  · rw [condition_suspended hs he]
    rfl

theorem admits_maskBound (hab : s.aborted = false)
    (h : Suspended s ∧ EventState s ∨ s.ctx = none ∧ wfCore s.ps = true) :
    admits .maskBound (condition s) = true := by
  obtain ⟨hs, he⟩ | ⟨hc, hcore⟩ := h
  · rw [condition_suspended hs he]
    rfl
  · rw [condition_idleValid hc hab (wfCore_valid hcore).1 (phase_le_of_wfCore hcore), if_pos hcore]
    split <;> rfl

theorem exec_maskBound_of (src : List Byte) (hab : s.aborted = false)
    (h : Suspended s ∧ EventState s ∨ s.ctx = none ∧ wfCore s.ps = true) :
    ∃ t, exec (.maskBound src) s = .next t :=
  ⟨_, (execMaskBound_of hab).trans (admitted_of _ (admits_maskBound hab h))⟩

end

/-- Settles O29: a transaction with the operands' key and rotation. -/
theorem maskFreeResult : Obligations.MaskFreeResult := by
  unfold Obligations.MaskFreeResult
  intro s key rot src h
  obtain ⟨rsp, hout, hrot⟩ := maskTransaction_out key rot src s
  refine ⟨_, maskBytes key rot src, rsp, admitted_of _ (admits_maskFree h), rfl, rfl, ⟨rfl, rfl, rfl, rfl, rfl⟩,
    hout, maskBytes_length key rot src, fun i hi => maskBytes_getD key rot src hi, ?_⟩
  rw [hrot, nextRotation_toNat]

/-- Settles O30: the same with the state's key and rotation, and the rotation written back. -/
theorem maskBoundResult : Obligations.MaskBoundResult := by
  unfold Obligations.MaskBoundResult
  intro s src hab h
  obtain ⟨t, ht⟩ := exec_maskBound_of src hab (h.imp id fun ⟨hc, _, hcore⟩ => ⟨hc, hcore⟩)
  obtain ⟨hps, hctx, hhost, rsp, hout, hrot⟩ := MaskTransform.exec_maskBound_next ht
  refine ⟨t, _, rsp, ht, hrot ▸ hps, hctx, hhost, hout, maskBytes_length _ _ src,
    fun i hi => maskBytes_getD _ _ src hi, ?_⟩
  rw [hrot, nextRotation_toNat]

/-! ### Reset and register access -/

/-- Settles O31: RESET is one write, and the drawn tag is cut to its width. -/
theorem resetResult : Obligations.ResetResult := by
  unfold Obligations.ResetResult
  intro s
  exact ⟨_, _, rfl, rfl, rfl, rfl, rfl, rfl, rfl, rfl, rfl, Invariant.truncateTag_lt _ _, rfl⟩

section
variable {s : State}

theorem readRegister_of (v : Word64) (h : s.ctx = none ∨ Suspended s) :
    readRegister v s = .next (s.send (.rdata v)) :=
  admitted_of _ (admits_register h).1

/-- Bits put side by side are digits. -/
theorem toNat_append_eq_add {m n : Nat} (x : BitVec m) (y : BitVec n) :
    (x ++ y).toNat = x.toNat * 2 ^ n + y.toNat := by
  rw [BitVec.toNat_append, ← Nat.shiftLeft_add_eq_or_of_lt y.isLt, Nat.shiftLeft_eq]

theorem flagsWord_eq (p : ParserState) :
    flagsWord p = BitVec.ofNat 64 (p.opcode.toNat + 16 * p.fin.toNat + 32 * p.hasMask.toNat) := by
  rw [flagsWord, Invariant.zeroExtend_eq_ofNat, toNat_append_eq_add, toNat_append_eq_add, BitVec.toNat_ofBool,
    BitVec.toNat_ofBool]
  congr 1
  omega

theorem keyWord_toNat (k : Key) : (keyWord k).toNat =
    k.k0.toNat * 2 ^ 24 + k.k1.toNat * 2 ^ 16 + k.k2.toNat * 2 ^ 8 + k.k3.toNat := by
  simp only [keyWord, toNat_append_eq_add]
  omega

theorem errorWord_eq (p : ParserState) : errorWord p = if p.error = .unknownState then 1 else 0 := by
  rw [errorWord]
  cases p.error <;> rfl

end

/-- Settles O32: each read sends its word of the map; the words put the fields at their places. -/
theorem registerReads : Obligations.RegisterReads := by
  unfold Obligations.RegisterReads
  intro s h
  rw [← flagsWord_eq, ← keyWord_toNat, ← errorWord_eq]
  simp only [← Invariant.zeroExtend_eq_ofNat]
  refine ⟨readRegister_of _ h, readRegister_of _ h, readRegister_of _ h, readRegister_of _ h,
    readRegister_of _ h, readRegister_of _ h, readRegister_of _ h, readRegister_of _ h,
    readRegister_of _ h, fun hwritten => ?_⟩
  exact (if_pos hwritten).trans (readRegister_of _ h)

/-- Settles O33: both draw a free value, and the tag's is cut to its width. -/
theorem freeReads : Obligations.FreeReads := by
  unfold Obligations.FreeReads
  intro s number h
  have htick : s.tick.ctx = none ∨ Suspended s.tick := h
  refine ⟨fun hwritten => ?tag, ?reserved⟩
  case tag =>
    have hread : exec .readTag s = .next (s.tick.send (.rdata (truncateTag s.params (Config.freeTag s.draw)))) :=
      (if_neg (by simp [hwritten])).trans (readRegister_of _ htick)
    exact ⟨_, _, hread, rfl, rfl, ⟨rfl, rfl, rfl, rfl, rfl⟩, rfl, Invariant.truncateTag_lt _ _⟩
  case reserved =>
    exact ⟨_, _, readRegister_of _ htick, rfl, rfl, ⟨rfl, rfl, rfl, rfl, rfl⟩, rfl⟩

/-- Settles O34: TAG stores the cut value and marks it written, so the read gives it back. -/
theorem tagWriteThenRead : Obligations.TagWriteThenRead := by
  unfold Obligations.TagWriteThenRead
  intro s wdata h
  -- TAG leaves the context alone, so the read is admitted where the write was
  exact ⟨_, admitted_of _ (admits_register h).2, rfl, rfl, rfl, rfl, rfl, rfl, rfl,
    readRegister_of (s := { s with
      ps := { s.ps with tag := truncateTag s.params wdata }, tagWritten := true }) _ h⟩

/-- Settles O35: three meanings that refuse, and a record the decoder rejects. -/
theorem reservedIsRefused : Obligations.ReservedIsRefused := by
  unfold Obligations.ReservedIsRefused
  intro s
  refine ⟨fun _ => rfl, rfl, fun _ => rfl, fun number wdata rs h hin hnumber => ?_⟩
  have h8 : number.toNat ≠ 8 := by omega
  have h10 : ¬ 10 ≤ number.toNat := by omega
  have hdecode : decodeWrite number wdata = .error (.readOnlyRegister number) := by
    rw [decodeWrite, if_neg h8, if_neg h10]
  simp [step, ParserSteps.fetch_quiet h, fetchHost, hin, runFetched, decode, decodeHost, hdecode, rejection]

end Sys2Proof.HostOps

/-! The admission table as a whole (R175), what an abort leaves (R35, R197), and the corner in which MASK_BOUND
leaves WF (log 6). -/

namespace Sys2Proof.HostOps

open Sys2Proof Sys2Proof.Machine

/-! ### The table of R175 -/

section
variable {s : State}

theorem readError_tag_run (v : Word64) (h : s.ctx = none ∨ Suspended s) :
    (∃ t, exec .readError s = .next t) ∧ ∃ t, exec (.tag v) s = .next t :=
  ⟨⟨_, readRegister_of _ h⟩, ⟨_, admitted_of _ (admits_register h).2⟩⟩

/-- No event is outstanding while the block is idle. -/
theorem exec_evtRsp_idle (a : Bool) (hc : s.ctx = none) :
    exec (.evtRsp a) s = .refused .noEventOutstanding := by
  have hno : admits .answer (condition s) = false := by
    rw [condition_idle hc]
    split <;> [skip; split <;> [skip; split <;> [skip; split]]] <;> rfl
  refine (admitted_refused _ hno).trans ?_
  rw [condition_idle hc]
  split <;> [skip; split <;> [skip; split <;> [skip; split]]] <;> rfl

theorem exec_evtRsp_of (a : Bool) (hs : Suspended s) (he : EventState s) : ∃ t, exec (.evtRsp a) s = .next t := by
  obtain ⟨c, p, hat⟩ := hs
  exact ⟨_, execEvtRsp_of a hat he⟩

theorem execMaskBound_refused {src : List Byte} {x : Condition} (hab : s.aborted = false) (h : condition s = x)
    (ha : admits .maskBound x = false) : exec (.maskBound src) s = .refused (refusalOf .maskBound x) :=
  (execMaskBound_of hab).trans (refused_in h ha)

/-- With `aborted` = 1 a state is one of those R37 excepts. -/
theorem aborted_eq_false_of_not_eventState (h : ¬ EventState s) : s.aborted = false := by
  by_contra hab
  exact h (.inl (by simpa using hab))

end

/-- Settles O36: in each column the condition is one value, and the table's cell for it decides. -/
theorem admissionTable : Obligations.AdmissionTable := by
  unfold Obligations.AdmissionTable
  intro s cb buf key rot a v
  refine ⟨⟨_, rfl⟩, ?idle, ?suspended, ?suspendedUnreachable, ?aborted, ?error, ?notWf⟩
  case idle =>
    intro hc hab _ hwf
    have hx := condition_idleWf hc hab hwf
    obtain ⟨hread, htag⟩ := readError_tag_run v (.inl hc)
    exact ⟨⟨_, admitted_in _ hx rfl⟩, ⟨_, admitted_in _ hx rfl⟩, ⟨_, admitted_in _ hx rfl⟩,
      exec_maskBound_of buf hab (.inr ⟨hc, wfCore_of_wf hwf⟩), ⟨_, admitted_in _ hx rfl⟩, hread, htag,
      exec_evtRsp_idle a hc⟩
  case suspended =>
    intro hs he
    have hx := condition_suspended hs he
    obtain ⟨hread, htag⟩ := readError_tag_run v (.inr hs)
    exact ⟨refused_in hx rfl, refused_in hx rfl, refused_in hx rfl,
      fun hab => exec_maskBound_of buf hab (.inl ⟨hs, he⟩), execMaskBound_aborted, ⟨_, admitted_in _ hx rfl⟩,
      hread, htag, exec_evtRsp_of a hs he⟩
  case suspendedUnreachable =>
    intro hs he
    have hx := condition_suspendedUnreachable hs he
    obtain ⟨hread, htag⟩ := readError_tag_run v (.inr hs)
    exact ⟨refused_in hx rfl, refused_in hx rfl, refused_in hx rfl,
      execMaskBound_refused (aborted_eq_false_of_not_eventState he) hx rfl, refused_in hx rfl, hread, htag,
      refused_in hx rfl⟩
  case aborted =>
    intro hc hab
    have hx := condition_idleAborted hc hab
    obtain ⟨hread, htag⟩ := readError_tag_run v (.inl hc)
    exact ⟨⟨_, admitted_in _ hx rfl⟩, ⟨_, admitted_in _ hx rfl⟩, refused_in hx rfl, execMaskBound_aborted hab,
      ⟨_, admitted_in _ hx rfl⟩, hread, htag, exec_evtRsp_idle a hc⟩
  case error =>
    intro hc hab hbad
    have hx := condition_idleError hc hab hbad
    obtain ⟨hread, htag⟩ := readError_tag_run v (.inl hc)
    exact ⟨⟨_, admitted_in _ hx rfl⟩, ⟨_, admitted_in _ hx rfl⟩, ⟨_, admitted_in _ hx rfl⟩,
      execMaskBound_refused hab hx rfl, ⟨_, admitted_in _ hx rfl⟩, hread, htag, exec_evtRsp_idle a hc⟩
  case notWf =>
    intro hc hab herr hphase hwf
    have hx := condition_idleValid hc hab herr hphase
    rw [if_neg (by simp [hwf])] at hx
    obtain ⟨hread, htag⟩ := readError_tag_run v (.inl hc)
    have hinit : ∃ t, exec .init s = .next t := ⟨_, exec_init_of hc⟩
    have hanswer := exec_evtRsp_idle a hc
    cases hcore : wfCore s.ps with
    | true =>
      rw [if_pos hcore] at hx
      exact ⟨hinit, refused_in hx rfl, refused_in hx rfl,
        fun _ => exec_maskBound_of buf hab (.inr ⟨hc, hcore⟩), by simp, refused_in hx rfl, hread, htag, hanswer⟩
    | false =>
      rw [if_neg (by simp [hcore])] at hx
      exact ⟨hinit, refused_in hx rfl, refused_in hx rfl, by simp,
        fun _ => execMaskBound_refused hab hx rfl, refused_in hx rfl, hread, htag, hanswer⟩

/-! ### Aborted -/

/-- Settles O59: the refusals come from the guards, and `aborted` has the writers named. -/
theorem abortedRefusesExecuteAndMaskBound : Obligations.AbortedRefusesExecuteAndMaskBound := by
  unfold Obligations.AbortedRefusesExecuteAndMaskBound
  refine ⟨fun s buf hab => ⟨?execute, execMaskBound_aborted hab⟩, fun s t i hexec => ?writers⟩
  case execute =>
    rcases hc : s.ctx with _ | c
    case none => exact .inl (refused_in (condition_idleAborted hc hab) rfl)
    case some =>
      rcases hw : c.wait with _ | p | p
      case running => exact .inr (refused_in (x := .running) (by simp [condition, hc, hw]) rfl)
      case emitting => exact .inr (refused_in (x := .running) (by simp [condition, hc, hw]) rfl)
      case suspended =>
        have he : EventState s := .inl hab
        exact .inr (refused_in (condition_suspended ⟨c, p, hc, hw⟩ he) rfl)
  case writers =>
    by_cases hi : i = .init ∨ i = .reset
    case pos =>
      obtain ⟨_, hclear, _⟩ := Writers.exec_init_or_reset hi hexec
      exact ⟨fun _ hset => by simp [hclear] at hset, fun _ _ => hi⟩
    case neg =>
      constructor
      · intro h0 h1
        exact Writers.aborted_writer hexec hi (by simp [h0, h1])
      · intro h1 h0
        obtain rfl := Writers.aborted_writer hexec hi (by simp [h0, h1])
        -- the answer Abort leaves `aborted` at 1
        obtain ⟨c, p, _, _, rfl⟩ := execEvtRsp_next (show execEvtRsp true s = .next t from hexec)
        exact absurd h0 (by simp [answerEvent])

/-- Idle and aborted, only INIT and reset lead anywhere else. -/
theorem exec_idleAborted_stays {s t : State} {i : Instr} (hc : s.ctx = none) (hab : s.aborted = true)
    (hinit : i ≠ .init) (hreset : i ≠ .reset) (h : exec i s = .next t) : t.ctx = none ∧ t.aborted = true := by
  have habt : t.aborted = true := by
    by_contra h0
    obtain hi | hi := (abortedRefusesExecuteAndMaskBound.2 s t i h).2 hab (by simpa using h0)
    · exact hinit hi
    · exact hreset hi
  refine ⟨?_, habt⟩
  cases Cursor.exec_move h with
  | proceeds _ _ hc' | suspends _ _ hc' | errs _ hc' => simp [hc] at hc'
  | aborts _ _ hs => exact absurd hs.1 (by simp [hc])
  | begins buf _ ht =>
    have hrefused : exec (.execute buf) s = .refused .afterAbort :=
      refused_in (condition_idleAborted hc hab) rfl
    simp [hrefused] at h
  | stays _ ht => rw [ht, hc]
  | resets => exact absurd rfl hreset

/-- The values of R40 are WF, so EXECUTE is admitted to them. -/
theorem exec_execute_initial {u : State} {tag : Word64} (buf : List Byte) (hc : u.ctx = none)
    (hab : u.aborted = false) (hps : u.ps = ParserState.initial tag) :
    wf u.ps = true ∧ ∃ v, exec (.execute buf) u = .next v := by
  have hwf : wf u.ps = true := by
    rw [hps]
    rfl
  exact ⟨hwf, exec_execute_of buf ⟨hc, .inr (.inr (.inr hwf))⟩ hab⟩

/-- Settles O37: an Abort leaves the idle aborted column, and only INIT and reset leave that. -/
theorem abortThenInitRecovers : Obligations.AbortThenInitRecovers := by
  unfold Obligations.AbortThenInitRecovers
  constructor
  · intro s t _ hexec
    obtain ⟨c, p, _, _, rfl⟩ := execEvtRsp_next (show execEvtRsp true s = .next t from hexec)
    exact ⟨rfl, rfl, rfl, rfl⟩
  · intro s buf hc hab
    have hx := condition_idleAborted hc hab
    refine ⟨refused_in hx rfl, execMaskBound_aborted hab, fun i t => exec_idleAborted_stays hc hab, ?init, ?reset⟩
    case init =>
      obtain ⟨hwf, v, hv⟩ := exec_execute_initial (tag := s.ps.tag)
        (u := respond none none { s with ps := initialised s.ps, aborted := false }) buf hc rfl rfl
      exact ⟨_, v, exec_init_of hc, hwf, rfl, rfl, hv⟩
    case reset =>
      obtain ⟨u, tag, hu, hps, _, habu, hcu, _⟩ := resetResult s
      obtain ⟨hwf, v, hv⟩ := exec_execute_initial buf hcu habu hps
      exact ⟨u, v, hu, hwf, hv⟩

/-! ### The rotation and WF (log 6) -/

/-- Idle between the two header bytes of a frame. -/
def betweenHeaderBytes : State :=
  { State.reset with ps := { ParserState.initial 0 with phase := phaseHead, opcode := 1, fin := true } }

/-- The same after MASK_BOUND of one byte. -/
def afterMaskBound : State :=
  maskTransaction Key.zero 0 [0]
    (betweenHeaderBytes.withPs { betweenHeaderBytes.ps with maskRotation := 1 })

/-- Out of step by the rotation alone, the block refuses what WF is asked for (R37, R110) and runs a further
MASK_BOUND (U16). -/
theorem idleOutOfStep_operations {s : State} (cb : BitVec 3) (buf src src' : List Byte) (key : Key)
    (rot : BitVec 2) (hx : condition s = .idleOutOfStep) (hab : s.aborted = false) :
    exec (.settings cb) s = .refused .unreachableState ∧ exec (.execute buf) s = .refused .unreachableState ∧
    exec (.maskFree key rot src) s = .refused .unreachableState ∧ ∃ t, exec (.maskBound src') s = .next t :=
  ⟨refused_in hx rfl, refused_in hx rfl, refused_in hx rfl, _,
    (execMaskBound_of hab).trans (admitted_in _ hx rfl)⟩

theorem condition_afterMaskBound : condition afterMaskBound = .idleOutOfStep := by decide

/-- Settles O49: the state between the two header bytes, and MASK_BOUND of one byte on it. -/
theorem maskBoundInHeadLeavesWF : Obligations.MaskBoundInHeadLeavesWF := by
  unfold Obligations.MaskBoundInHeadLeavesWF
  have hmask : exec (.maskBound [0]) betweenHeaderBytes = .next afterMaskBound := by rfl
  have hinit := exec_init_of (s := afterMaskBound) rfl
  obtain ⟨hsettings, hexecute, hfree, u, hbound⟩ :=
    idleOutOfStep_operations 7 [0] [0] [0, 0, 0] ⟨1, 2, 3, 4⟩ 0 condition_afterMaskBound rfl
  exact ⟨betweenHeaderBytes, afterMaskBound, u, _, by decide, by decide, rfl, rfl, rfl, hmask, by decide,
    by decide, hsettings, hexecute, hfree, hbound, hinit, rfl⟩

/-- MASK_BOUND of `r` bytes from rotation 0 makes the rotation `r`. -/
theorem nextRotation_zero (r : BitVec 2) : nextRotation 0 r.toNat = r := by
  apply BitVec.eq_of_toNat_eq
  have := r.isLt
  rw [nextRotation_toNat]
  simp
  omega

/-- The same state with rotation 0. -/
def rotationCleared (t : State) : State := t.withPs { t.ps with maskRotation := 0 }

theorem rotationCleared_wf {t : State} (h : wfCore t.ps = true) : wf (rotationCleared t).ps = true :=
  Invariant.wf_iff.mpr ⟨h, Writers.wfRotation_of_zero rfl⟩

/-- Settles O60: from the same state with rotation 0, which is WF, as many bytes as the rotation; and back, `wfCore`
does not read the rotation. -/
theorem wfCoreIsWfUpToMaskBound : Obligations.WfCoreIsWfUpToMaskBound := by
  unfold Obligations.WfCoreIsWfUpToMaskBound
  intro t hc hab
  constructor
  · intro hcore
    obtain ⟨u, hu⟩ := exec_maskBound_of (s := rotationCleared t)
      (List.replicate t.ps.maskRotation.toNat 0) hab (.inr ⟨hc, hcore⟩)
    obtain ⟨hps, _⟩ := MaskTransform.exec_maskBound_next hu
    rw [List.length_replicate, show (rotationCleared t).ps.maskRotation = 0 from rfl, nextRotation_zero] at hps
    exact ⟨_, u, _, rotationCleared_wf hcore, hc, hab, hu, hps⟩
  · rintro ⟨s, u, src, hwf, _, _, hexec, hps⟩
    obtain ⟨hu, _⟩ := MaskTransform.exec_maskBound_next hexec
    have hcore : wfCore s.ps = true := wfCore_of_wf hwf
    rw [← hps, hu]
    exact hcore

end Sys2Proof.HostOps

/-! The parser read byte by byte, apart from buffers and steps: what one byte makes of ParserState and which items
of the event stream it gives (R111 to R127, R133). The runs of the machine are compared with it. -/

namespace Sys2Proof.Bytes

open Sys2Proof Sys2Proof.Machine Sys2Proof.Invariant

/-! ### One byte -/

/-- PostMask on ParserState (R115); it always comes to the HEADER event. -/
def enterBody (p : ParserState) : ParserState :=
  if p.length = 0 then p else { p with phase := phaseBody, remaining := p.length }

/-- PostLength on ParserState (R114), and whether it comes to the HEADER event. -/
def lengthDone (p : ParserState) : ParserState × Bool :=
  if p.hasMask then ({ p with phase := phaseMask, remaining := 4 }, false) else (enterBody p, true)

/-- A B1 byte (R117 to R119). -/
def headByte (p : ParserState) (b : Byte) : ParserState × Bool :=
  if (b1Len7 b).toNat = 126 then
    ({ p with hasMask := b1Mask b, length := 0, remaining := 2, phase := phaseLength }, false)
  else if (b1Len7 b).toNat = 127 then
    ({ p with hasMask := b1Mask b, length := 0, remaining := 8, phase := phaseLength }, false)
  else lengthDone { p with hasMask := b1Mask b, length := shortLength (b1Len7 b) }

/-- A length byte (R120). -/
def lengthByte (p : ParserState) (b : Byte) : ParserState × Bool :=
  if p.remaining = 1 then lengthDone { p with length := accumulateLength p.length b, remaining := 0 }
  else ({ p with length := accumulateLength p.length b, remaining := p.remaining - 1 }, false)

/-- A key byte (R121). -/
def keyByteStep (p : ParserState) (b : Byte) : ParserState × Bool :=
  if p.remaining = 1 then (enterBody { p with maskKey := setKeyByte p.maskKey 3 b, remaining := 0 }, true)
  else ({ p with maskKey := setKeyByte p.maskKey (4 - p.remaining.toNat) b,
                 remaining := p.remaining - 1 }, false)

/-- A byte of a header phase, and whether it comes to the HEADER event. -/
def headerByte (p : ParserState) (b : Byte) : ParserState × Bool :=
  match p.phase.toNat with
  | 0 => ({ p with opcode := b0Opcode b, fin := b0Fin b, maskRotation := 0, bodyDelivered := 0,
                   phase := phaseHead }, false)
  | 1 => headByte p b
  | 2 => lengthByte p b
  | _ => keyByteStep p b

section
variable {p : ParserState} (b : Byte)

theorem headerByte_start (h : p.phase = phaseStart) : headerByte p b =
    ({ p with opcode := b0Opcode b, fin := b0Fin b, maskRotation := 0, bodyDelivered := 0,
              phase := phaseHead }, false) := by simp [headerByte, h]

theorem headerByte_head (h : p.phase = phaseHead) : headerByte p b = headByte p b := by simp [headerByte, h]

theorem headerByte_length (h : p.phase = phaseLength) : headerByte p b = lengthByte p b := by
  simp [headerByte, h]

theorem headerByte_mask (h : p.phase = phaseMask) : headerByte p b = keyByteStep p b := by
  simp [headerByte, h]

end

/-! ### The items -/

/-- The items of an event, if it is enabled (R112). -/
def sent (cb : BitVec 3) (k : EventKind) (l : List Item) : List Item := if eventEnabled cb k then l else []

theorem sent_cons (cb : BitVec 3) (k : EventKind) (i : Item) (l : List Item) :
    sent cb k (i :: l) = sent cb k [i] ++ sent cb k l := by
  unfold sent
  split <;> rfl

def headerItem (p : ParserState) : Item := .header p.opcode p.fin p.hasMask p.length p.maskKey

/-- The payload items of a run that begins at an offset. -/
def payload (offset : Word64) (run : List Byte) : List Item :=
  run.mapIdx fun i b => .payload (offset + BitVec.ofNat 64 i) b

theorem payload_cons (offset : Word64) (b : Byte) (run : List Byte) :
    payload offset (b :: run) = .payload offset b :: payload (offset + 1) run := by
  have hshift (i : Nat) : offset + BitVec.ofNat 64 (i + 1) = offset + 1 + BitVec.ofNat 64 i := by bv_omega
  simp only [payload, List.mapIdx_cons, hshift]
  simp

/-- The HEADER event, and the END of a frame of length 0. -/
def absorbHeader (cb : BitVec 3) (p : ParserState) : ParserState × List Item :=
  if p.length = 0 then (enterStart p, sent cb .header [headerItem p] ++ sent cb .frameEnd [.frameEnd])
  else (p, sent cb .header [headerItem p])

/-- A run of payload, and the END of the frame when it is its last. -/
def absorbRun (cb : BitVec 3) (p : ParserState) (run : List Byte) : ParserState × List Item :=
  if (afterRun p run.length).remaining = 0 then
    (enterStart (afterRun p run.length),
     sent cb .body (payload p.bodyDelivered run) ++ sent cb .frameEnd [.frameEnd])
  else (afterRun p run.length, sent cb .body (payload p.bodyDelivered run))

/-- One byte. -/
def absorb (cb : BitVec 3) (p : ParserState) (b : Byte) : ParserState × List Item :=
  if p.phase = phaseBody then absorbRun cb p [b]
  else if (headerByte p b).2 then absorbHeader cb (headerByte p b).1
  else ((headerByte p b).1, [])

/-- Byte after byte. -/
def absorbAll (cb : BitVec 3) : ParserState → List Byte → ParserState × List Item
  | p, [] => (p, [])
  | p, b :: bs =>
    ((absorbAll cb (absorb cb p b).1 bs).1, (absorb cb p b).2 ++ (absorbAll cb (absorb cb p b).1 bs).2)

theorem absorbAll_append (cb : BitVec 3) (p : ParserState) (a b : List Byte) :
    absorbAll cb p (a ++ b) = ((absorbAll cb (absorbAll cb p a).1 b).1,
      (absorbAll cb p a).2 ++ (absorbAll cb (absorbAll cb p a).1 b).2) := by
  induction a generalizing p with
  | nil => rfl
  | cons x a ih => simp only [List.cons_append, absorbAll, ih, List.append_assoc]

theorem absorbAll_singleton (cb : BitVec 3) (p : ParserState) (b : Byte) :
    absorbAll cb p [b] = absorb cb p b := by simp [absorbAll]

theorem afterRun_afterRun (p : ParserState) (m n : Nat) :
    afterRun (afterRun p m) n = afterRun p (m + n) := by
  have hrem : p.remaining - BitVec.ofNat 64 m - BitVec.ofNat 64 n = p.remaining - BitVec.ofNat 64 (m + n) := by
    bv_omega
  have hbody : p.bodyDelivered + BitVec.ofNat 64 m + BitVec.ofNat 64 n =
      p.bodyDelivered + BitVec.ofNat 64 (m + n) := by bv_omega
  simp only [afterRun, hrem, hbody]

/-- A run is its first byte and the run after it. -/
theorem absorbRun_cons (cb : BitVec 3) (p : ParserState) (b : Byte) (run : List Byte) :
    absorbRun cb p (b :: run) = ((absorbRun cb (afterRun p 1) run).1,
      sent cb .body [.payload p.bodyDelivered b] ++ (absorbRun cb (afterRun p 1) run).2) := by
  have hlen : afterRun (afterRun p 1) run.length = afterRun p (b :: run).length := by
    rw [afterRun_afterRun, List.length_cons, Nat.add_comm]
  have hoffset : (afterRun p 1).bodyDelivered = p.bodyDelivered + 1 := rfl
  rw [absorbRun, absorbRun, hlen, hoffset, payload_cons,
    sent_cons cb .body (.payload p.bodyDelivered b) (payload (p.bodyDelivered + 1) run)]
  split <;> simp only [List.append_assoc]

/-- A payload byte that is not the frame's last. -/
theorem absorb_inside (cb : BitVec 3) {p : ParserState} (b : Byte) (hphase : p.phase = phaseBody)
    (h : 2 ≤ p.remaining.toNat) :
    absorb cb p b = (afterRun p 1, sent cb .body [.payload p.bodyDelivered b]) := by
  have hmore : ¬ (afterRun p 1).remaining = 0 := by
    simp only [afterRun]
    bv_omega
  rw [absorb, if_pos hphase, absorbRun, List.length_singleton, if_neg hmore, payload_cons]
  rfl

/-- A run inside the frame is its bytes one by one. -/
theorem absorbAll_run (cb : BitVec 3) (p : ParserState) (b : Byte) (run : List Byte)
    (hphase : p.phase = phaseBody) (hle : (b :: run).length ≤ p.remaining.toNat) :
    absorbAll cb p (b :: run) = absorbRun cb p (b :: run) := by
  induction run generalizing p b with
  | nil => rw [absorbAll_singleton, absorb, if_pos hphase]
  | cons b' run ih =>
    have h2 : 2 ≤ p.remaining.toNat := by
      simp only [List.length_cons] at hle
      omega
    have hrest : (b' :: run).length ≤ (afterRun p 1).remaining.toNat := by
      simp only [List.length_cons, afterRun] at hle ⊢
      bv_omega
    rw [absorbAll, absorb_inside cb b hphase h2, ih (afterRun p 1) b' hphase hrest, absorbRun_cons cb p b]

end Sys2Proof.Bytes

/-! An EXECUTE answered Continue: what every driven step keeps, and how an emission point is passed (R111, R112,
R133). -/

namespace Sys2Proof.Runs

open Sys2Proof Sys2Proof.Machine Sys2Proof.Invariant Sys2Proof.Bytes

/-! ### What a driven step keeps -/

/-- A state of a run in which the host is silent: the invariant, with the rotation clauses of WF. -/
structure Driven (s : State) : Prop where
  inv : s.inv = true
  rotation : wfRotation s.ps = true
  inbox : s.inbox = []

/-- With a silent host a driven step waits, ends the loop, or executes an instruction that is not MASK_BOUND. -/
theorem drive_cases {s t : State} (hin : s.inbox = []) (h : drive s = .next t) :
    t = s ∨ (∃ c, s.ctx = some c ∧ c.rest = [] ∧ t = finish c.n s) ∨
    ∃ i, exec i s = .next t ∧ i.wf s.params = true ∧ ∀ src, i ≠ .maskBound src := by
  rcases hc : s.ctx with _ | c
  case none =>
    rw [drive_idle hc hin] at h
    cases h
    exact .inl rfl
  case some =>
    rcases hw : c.wait with _ | p | p
    case suspended =>
      simp only [drive, hc, hw] at h
      exact .inr (.inr ⟨.evtRsp false, h, rfl, by simp⟩)
    case emitting =>
      simp only [drive, hc, hw, ParserSteps.step_emitting hc hw] at h
      refine .inr (.inr ⟨p.instr, h, ?_, ?_⟩) <;> cases p <;> simp [EmitPoint.instr, Instr.wf]
    case running =>
      simp only [drive, hc, hw] at h
      by_cases hr : c.rest = []
      case pos =>
        rw [ParserSteps.step_loopEnd hc hw hr] at h
        cases h
        exact .inr (.inl ⟨c, rfl, hr, rfl⟩)
      case neg =>
        rw [step, ParserSteps.fetch_running hc hw hr, runFetched] at h
        split at h
        case h_1 i hd =>
          refine .inr (.inr ⟨i, h, Encoding.decodeYieldsWellFormed _ _ _ hd, ?_⟩)
          -- between two steps no operation of the host is admitted
          rintro src rfl
          obtain ⟨_, ha, _⟩ := execMaskBound_next (show execMaskBound src s = .next t from h)
          obtain hno | ⟨c', p, hc', hw'⟩ := admits_quiet ha (by simp)
          · simp [hc] at hno
          · obtain rfl : c = c' := by simpa [hc] using hc'
            simp [hw] at hw'
        case h_2 => cases h

theorem drive_driven {s t : State} (hs : Driven s) (h : drive s = .next t) : Driven t := by
  obtain rfl | ⟨c, hc, hrest, _⟩ | ⟨i, hexec, hwf, hbound⟩ := drive_cases hs.inbox h
  · exact hs
  · obtain ⟨_, hcur, _⟩ := inv_iff.mp hs.inv
    exact absurd hrest (Cursor.cursorOk_pending (hcur c hc)).1
  · obtain ⟨_, hinbox⟩ := Writers.exec_keeps_params_inbox hexec
    exact ⟨exec_inv hexec hwf hs.inv, Writers.rotationClauseKept s t i hs.rotation hbound hexec,
      hinbox.trans hs.inbox⟩

theorem driveN_driven {k : Nat} {s t : State} (hs : Driven s) (h : driveN k s = .next t) : Driven t := by
  induction k generalizing s with
  | zero => cases h; exact hs
  | succ k ih =>
    simp only [driveN] at h
    split at h
    case h_1 u hu => exact ih (drive_driven hs hu) h
    case h_2 | h_3 => cases h

/-- Two runs go on from one another. -/
theorem driveN_trans {j k : Nat} {s t u : State} (h : driveN j s = .next t) (h' : driveN k t = .next u) :
    driveN (j + k) s = .next u := (driveN_of_next k h).trans h'

theorem driveN_one {s t : State} (h : drive s = .next t) : driveN 1 s = .next t := driveN_succ 0 h

/-! ### An emission point, answered Continue if it is enabled -/

/-- What an emission point sends. -/
def eventRecords (p : EmitPoint) (c : ExecCtx) (s : State) : List OutRecord :=
  if eventEnabled s.cbEn p.kind then [.evt (evtRecord p s) (evtData p c)] else []

theorem pointOk_of_driven {s : State} {c : ExecCtx} {p : EmitPoint} (hs : Driven (reachEmit p c s)) :
    pointOk p s.ps c.rest.length = true := by
  obtain ⟨_, _, _, hshape⟩ := inv_iff.mp hs.inv
  exact ((shaped_atPoint (reachEmit_ctx p c s) (.inl rfl)).mp hshape).2

/-- At most two driven steps lead from an emission point to what Continue does. -/
theorem drive_point {s : State} {c : ExecCtx} {p : EmitPoint} (hs : Driven (reachEmit p c s)) :
    ∃ m u, m ≤ 2 ∧ driveN m (reachEmit p c s) = .next (continueFrom p c u) ∧ u.ps = s.ps ∧ SameHost s u ∧
      u.out = s.out ++ eventRecords p c s := by
  have hdrive := drive_emitting (s := reachEmit p c s) (p := p) rfl rfl
  have hpoint := pointOk_of_driven hs
  cases hen : eventEnabled s.cbEn p.kind with
  | false =>
    rw [emit_disabled (s := reachEmit p c s) _ hen] at hdrive
    refine ⟨1, s, by omega, (driveN_one hdrive).trans ?_, rfl, ⟨rfl, rfl, rfl, rfl, rfl⟩, ?_⟩
    · exact congrArg _ (Events.continueFrom_withWait _ c.wait _)
    · simp [eventRecords, hen]
  | true =>
    rw [emit_enabled (s := reachEmit p c s) _ hen] at hdrive
    refine ⟨2, (s.send (.evt (evtRecord p s) (evtData p c))).tick, le_rfl, ?_, rfl, ⟨rfl, rfl, rfl, rfl, rfl⟩, ?_⟩
    · refine driveN_trans (driveN_one hdrive) ((driveN_one (drive_suspended ⟨rfl, rfl⟩ ?_)).trans ?_)
      · exact .inr (.inr (.inr hpoint))
      · exact congrArg _ (Events.continueFrom_withWait (s := (s.send _).tick) _ c.wait _)
    · simp [eventRecords, hen]

end Sys2Proof.Runs

/-! The rounds of an EXECUTE: which bytes each takes, what it sends, and that the records are those of R132. -/

namespace Sys2Proof.Runs

open Sys2Proof Sys2Proof.Machine Sys2Proof.Invariant Sys2Proof.Bytes

/-! ### The records of an emission point -/

section
variable {s : State} {c : ExecCtx}

theorem items_eventRecords (p : EmitPoint) : items (eventRecords p c s) =
    sent s.cbEn p.kind (itemsOf (.evt (evtRecord p s) (evtData p c))) := by
  unfold eventRecords sent
  split <;> simp [items]

theorem items_header : items (eventRecords .header c s) = sent s.cbEn .header [headerItem s.ps] :=
  items_eventRecords .header

theorem items_body {k : Nat} : items (eventRecords (.body k) c s) =
    sent s.cbEn .body (payload s.ps.bodyDelivered (c.rest.take k)) := items_eventRecords (.body k)

theorem items_frameEnd {k : Nat} :
    items (eventRecords (.frameEnd k) c s) = sent s.cbEn .frameEnd [.frameEnd] :=
  items_eventRecords (.frameEnd k)

theorem counts_eventRecords (p : EmitPoint) : counts (eventRecords p c s) = [] := by
  unfold eventRecords
  split <;> rfl

theorem eventRecords_all (p : EmitPoint) (h : s.cbEn = 7) :
    eventRecords p c s = [.evt (evtRecord p s) (evtData p c)] := by
  have hen : eventEnabled s.cbEn p.kind = true := by rw [h]; cases p.kind <;> decide
  exact if_pos hen

end

/-! ### What a stretch of a run gives -/

/-- Where a frame stands in the reading of `framesOk`: between frames in a header phase. -/
def frameOf (p : ParserState) : Option (Nat × Nat) :=
  if p.phase = phaseBody then some (p.length.toNat, p.bodyDelivered.toNat) else none

theorem frameOf_body {p : ParserState} (h : p.phase = phaseBody) :
    frameOf p = some (p.length.toNat, p.bodyDelivered.toNat) := if_pos h

theorem frameOf_header {p : ParserState} (h : p.phase ≠ phaseBody) : frameOf p = none := if_neg h

/-- The records `o` and the state `q` they leave are those of the reading `r`, and, with every event enabled, `o`
follows the rule R132 from `st` on. -/
structure Gives (cb : BitVec 3) (st : Option (Nat × Nat)) (r : ParserState × List Item) (o : List OutRecord)
    (q : ParserState) : Prop where
  ps : q = r.1
  items : items o = r.2
  counts : counts o = []
  frames : cb = 7 → ∀ o', framesOk (frameOf q) o' = true → framesOk st (o ++ o') = true

/-- A stretch of a run that takes `bytes`. -/
abbrev Absorbs (cb : BitVec 3) (p : ParserState) (bytes : List Byte) (o : List OutRecord)
    (q : ParserState) : Prop :=
  Gives cb (frameOf p) (absorbAll cb p bytes) o q

theorem Absorbs.refl (cb : BitVec 3) (p : ParserState) : Absorbs cb p [] [] p :=
  ⟨rfl, rfl, rfl, fun _ _ h => h⟩

theorem Absorbs.trans {cb : BitVec 3} {p q r : ParserState} {a b : List Byte} {o o' : List OutRecord}
    (h : Absorbs cb p a o q) (h' : Absorbs cb q b o' r) : Absorbs cb p (a ++ b) (o ++ o') r := by
  obtain ⟨rfl, hitems, hcounts, hframes⟩ := h
  obtain ⟨rfl, hitems', hcounts', hframes'⟩ := h'
  refine ⟨?_, ?_, ?_, fun hcb o'' hok => ?_⟩
  · rw [absorbAll_append]
  · rw [items_append, hitems, hitems', absorbAll_append]
  · rw [counts_append, hcounts, hcounts']
    rfl
  · rw [List.append_assoc]
    exact hframes hcb _ (hframes' hcb _ hok)

section
variable {s s' : State} {c : ExecCtx} {k : Nat}

/-- HEADER of a frame with payload. -/
theorem gives_header (hphase : s.ps.phase = phaseBody) (hbody : s.ps.bodyDelivered = 0) (hlen : s.ps.length ≠ 0) :
    Gives s.cbEn none (absorbHeader s.cbEn s.ps) (eventRecords .header c s) s.ps := by
  rw [absorbHeader, if_neg hlen]
  refine ⟨rfl, items_header, counts_eventRecords _, fun hcb o' hok => ?_⟩
  rw [frameOf_body hphase, hbody] at hok
  rw [eventRecords_all _ hcb]
  exact hok

/-- HEADER and END of a zero-length frame. -/
theorem gives_zeroFrame (hlen : s.ps.length = 0) (hcb' : s'.cbEn = s.cbEn) :
    Gives s.cbEn none (absorbHeader s.cbEn s.ps)
      (eventRecords .header c s ++ eventRecords (.frameEnd k) c s') (enterStart s.ps) := by
  rw [absorbHeader, if_pos hlen]
  refine ⟨rfl, ?_, ?_, fun hcb o' hok => ?_⟩
  · rw [items_append, items_header, items_frameEnd, hcb']
  · rw [counts_append, counts_eventRecords, counts_eventRecords]
    rfl
  · have hzero : (evtRecord .header s).length.toNat = 0 := by
      rw [show (evtRecord .header s).length = s.ps.length from rfl, hlen]
      rfl
    rw [frameOf_header (by simp [enterStart])] at hok
    rw [eventRecords_all _ hcb, eventRecords_all _ (hcb'.trans hcb)]
    simpa [framesOk, evtRecord_kind, EmitPoint.kind, hzero] using hok

/-- One BODY record in the reading of R132. -/
theorem framesOk_body {o : List OutRecord} (hcb : s.cbEn = 7) (hphase : s.ps.phase = phaseBody) (hk1 : 1 ≤ k)
    (hkn : k ≤ c.rest.length) (hkl : s.ps.bodyDelivered.toNat + k ≤ s.ps.length.toNat)
    (h : framesOk (some (s.ps.length.toNat, s.ps.bodyDelivered.toNat + k)) o = true) :
    framesOk (frameOf s.ps) (eventRecords (.body k) c s ++ o) = true := by
  have hoffset : (evtRecord (.body k) s).offset = s.ps.bodyDelivered := rfl
  have hcount : (evtRecord (.body k) s).k = k := rfl
  rw [frameOf_body hphase, eventRecords_all _ hcb]
  simp [framesOk, evtRecord_kind, EmitPoint.kind, evtData, hoffset, hcount, hk1, hkn, hkl, h]

/-- The counters of a frame before and after a run. -/
theorem afterRun_counters (hphase : s.ps.phase = phaseBody) (hwf : wfCore s.ps = true)
    (hk : k ≤ s.ps.remaining.toNat) :
    (afterRun s.ps k).bodyDelivered.toNat = s.ps.bodyDelivered.toNat + k ∧
    s.ps.bodyDelivered.toNat + k ≤ s.ps.length.toNat ∧
    ((afterRun s.ps k).remaining = 0 → s.ps.bodyDelivered.toNat + k = s.ps.length.toNat) := by
  obtain ⟨_, hpos, hle, hbody⟩ := (wfCore_body hphase).mp hwf
  have hadd : (afterRun s.ps k).bodyDelivered.toNat = s.ps.bodyDelivered.toNat + k := by
    simp only [afterRun]
    bv_omega
  have hzero : (afterRun s.ps k).remaining = 0 → s.ps.remaining.toNat = k := by
    simp only [afterRun]
    bv_omega
  exact ⟨hadd, by omega, fun h => by have := hzero h; omega⟩

/-- BODY of a run after which the frame goes on. -/
theorem gives_body (hphase : s.ps.phase = phaseBody) (hwf : wfCore s.ps = true) (hk1 : 1 ≤ k)
    (hkn : k ≤ c.rest.length) (hk : k ≤ s.ps.remaining.toNat) (hmore : (afterRun s.ps k).remaining ≠ 0) :
    Gives s.cbEn (frameOf s.ps) (absorbRun s.cbEn s.ps (c.rest.take k)) (eventRecords (.body k) c s)
      (afterRun s.ps k) := by
  obtain ⟨hadd, hkl, _⟩ := afterRun_counters hphase hwf hk
  rw [absorbRun, List.length_take_of_le hkn, if_neg hmore]
  refine ⟨rfl, items_body, counts_eventRecords _, fun hcb o' hok => framesOk_body hcb hphase hk1 hkn hkl ?_⟩
  rwa [frameOf_body (show (afterRun s.ps k).phase = phaseBody from hphase), hadd] at hok

/-- BODY of the frame's last run, and its END. -/
theorem gives_lastBody (hphase : s.ps.phase = phaseBody) (hwf : wfCore s.ps = true) (hk1 : 1 ≤ k)
    (hkn : k ≤ c.rest.length) (hk : k ≤ s.ps.remaining.toNat) (hlast : (afterRun s.ps k).remaining = 0)
    (hcb' : s'.cbEn = s.cbEn) :
    Gives s.cbEn (frameOf s.ps) (absorbRun s.cbEn s.ps (c.rest.take k))
      (eventRecords (.body k) c s ++ eventRecords (.frameEnd k) c s') (enterStart (afterRun s.ps k)) := by
  obtain ⟨_, hkl, hsum⟩ := afterRun_counters hphase hwf hk
  rw [absorbRun, List.length_take_of_le hkn, if_pos hlast]
  refine ⟨rfl, ?_, ?_, fun hcb o' hok => ?_⟩
  · rw [items_append, items_body, items_frameEnd, hcb']
  · rw [counts_append, counts_eventRecords, counts_eventRecords]
    rfl
  · rw [frameOf_header (by simp [enterStart])] at hok
    rw [List.append_assoc]
    refine framesOk_body hcb hphase hk1 hkn hkl ?_
    rw [eventRecords_all _ (hcb'.trans hcb)]
    simpa [framesOk, evtRecord_kind, EmitPoint.kind, hsum hlast] using hok

end

/-! ### The rounds -/

/-- In `m` driven steps `s` comes to `Advance(k)` from the context `c` and the state `u`, which has the host side of
`s₀` and has sent `o` after it. -/
structure RoundTo (s₀ s : State) (c : ExecCtx) (m k : Nat) (o : List OutRecord) (u : State) : Prop where
  drives : driveN m s = .next (advance k c u)
  host : SameHost s₀ u
  out : u.out = s₀.out ++ o

section
variable {s : State} {c : ExecCtx} {k : Nat}

/-- END, answered Continue. -/
theorem drive_frameEnd (hs : Driven (reachEmit (.frameEnd k) c s)) : ∃ m u, m ≤ 2 ∧
    RoundTo s (reachEmit (.frameEnd k) c s) c m k (eventRecords (.frameEnd k) c s) u ∧
    u.ps = enterStart s.ps := by
  obtain ⟨m, u, hm, hdrive, hps, hhost, hout⟩ := drive_point hs
  exact ⟨m, u.withPs (enterStart u.ps), hm, ⟨hdrive, hhost, hout⟩, by rw [withPs_ps, hps]⟩

/-- HEADER, and END of a zero-length frame, answered Continue. -/
theorem drive_header (hs : Driven (reachEmit .header c s)) : ∃ m o u, m ≤ 4 ∧
    RoundTo s (reachEmit .header c s) c m 1 o u ∧ Gives s.cbEn none (absorbHeader s.cbEn s.ps) o u.ps := by
  have hpoint := pointOk_of_driven hs
  obtain ⟨m, u, hm, hdrive, hps, hhost, hout⟩ := drive_point hs
  rw [continueFrom, hps] at hdrive
  by_cases hlen : s.ps.length = 0
  case pos =>
    rw [if_pos hlen] at hdrive
    obtain ⟨m', u', hm', ⟨hdrive', hhost', hout'⟩, hps'⟩ := drive_frameEnd (driveN_driven hs hdrive)
    refine ⟨m + m', eventRecords .header c s ++ eventRecords (.frameEnd 1) c u, u', by omega,
      ⟨driveN_trans hdrive hdrive', Writers.sameHost_trans hhost hhost', ?_⟩, ?_⟩
    · rw [hout', hout, List.append_assoc]
    · rw [hps', hps]
      exact gives_zeroFrame hlen hhost.1
  case neg =>
    rw [if_neg hlen] at hdrive
    refine ⟨m, _, u, by omega, ⟨hdrive, hhost, hout⟩, ?_⟩
    rw [hps]
    obtain hzero | ⟨hwf, hphase, hrem⟩ := pointOk_header.mp hpoint
    · exact absurd (zeroFrame_iff.mp hzero).2.2.1 hlen
    · obtain ⟨_, _, _, hbody⟩ := (wfCore_body hphase).mp hwf
      have hbody0 : s.ps.bodyDelivered = 0 := by bv_omega
      exact gives_header hphase hbody0 hlen

/-- BODY, and END when the run is the frame's last, answered Continue. -/
theorem drive_body (hs : Driven (reachEmit (.body k) c s)) (hk1 : 1 ≤ k) (hkn : k ≤ c.rest.length) :
    ∃ m o u, m ≤ 4 ∧ RoundTo s (reachEmit (.body k) c s) c m k o u ∧
      Gives s.cbEn (frameOf s.ps) (absorbRun s.cbEn s.ps (c.rest.take k)) o u.ps := by
  obtain ⟨hwf, hphase, hk⟩ := pointOk_body.mp (pointOk_of_driven hs)
  have hkrem : k ≤ s.ps.remaining.toNat := hk ▸ Nat.min_le_left _ _
  obtain ⟨m, u, hm, hdrive, hps, hhost, hout⟩ := drive_point hs
  rw [continueFrom_body, hps] at hdrive
  by_cases hlast : (afterRun s.ps k).remaining = 0
  case pos =>
    rw [if_pos hlast] at hdrive
    obtain ⟨m', u', hm', ⟨hdrive', hhost', hout'⟩, hps'⟩ := drive_frameEnd (driveN_driven hs hdrive)
    refine ⟨m + m',
      eventRecords (.body k) c s ++ eventRecords (.frameEnd k) c (u.withPs (afterRun s.ps k)), u', by omega,
      ⟨driveN_trans hdrive hdrive', Writers.sameHost_trans hhost hhost', ?_⟩, ?_⟩
    · rw [hout', withPs_out, hout, List.append_assoc]
    · rw [hps']
      exact gives_lastBody hphase hwf hk1 hkn hkrem hlast hhost.1
  case neg =>
    rw [if_neg hlast] at hdrive
    refine ⟨m, _, u.withPs (afterRun s.ps k), by omega, ⟨hdrive, hhost, hout⟩, ?_⟩
    exact gives_body hphase hwf hk1 hkn hkrem hlast

end

end Sys2Proof.Runs

/-! Whole EXECUTEs (R111, R132, R133, R238): round after round to the end of the buffer. A round takes a byte of the
header or a run of the payload in at most five driven steps. -/

namespace Sys2Proof.Runs

open Sys2Proof Sys2Proof.Machine Sys2Proof.Invariant Sys2Proof.Bytes

/-! ### A byte of the header on the machine -/

/-- Where a header byte leads: to the HEADER event, or past the byte. -/
def place (c : ExecCtx) (s : State) (r : ParserState × Bool) : State :=
  if r.2 then reachEmit .header c (s.withPs r.1) else advance 1 c (s.withPs r.1)

section
variable (c : ExecCtx) (s : State) (p : ParserState)

theorem postMask_eq_place : postMask c (s.withPs p) = place c s (enterBody p, true) := by
  unfold postMask enterBody
  rw [withPs_ps]
  split <;> rfl

theorem postLength_eq_place : postLength c (s.withPs p) = place c s (lengthDone p) := by
  unfold postLength lengthDone
  rw [withPs_ps]
  split
  · rfl
  · exact postMask_eq_place c s p

end

section
variable {s : State} {c : ExecCtx} {b : Byte}

theorem exec_decodeB1 (hc : s.ctx = some c) (hw : c.wait = .running) (hp : s.ps.phase = phaseHead)
    (hb : [b] <+: c.rest) : exec (decodeB1 b) s = .next (place c s (headByte s.ps b)) := by
  unfold decodeB1 headByte
  split
  case isTrue h =>
    have hbyte : b = b1Byte (b1Mask b) 126 := by
      rw [show (126 : BitVec 7) = b1Len7 b from BitVec.eq_of_toNat_eq h.symm, b1Byte_fields]
    exact ParserSteps.exec_headX16_of ⟨hc, hw, hp, hbyte ▸ hb⟩
  case isFalse h126 =>
    split
    case isTrue h =>
      have hbyte : b = b1Byte (b1Mask b) 127 := by
        rw [show (127 : BitVec 7) = b1Len7 b from BitVec.eq_of_toNat_eq h.symm, b1Byte_fields]
      exact ParserSteps.exec_headX64_of ⟨hc, hw, hp, hbyte ▸ hb⟩
    case isFalse h127 =>
      have hlen : (b1Len7 b).toNat ≤ 125 := by
        have := (b1Len7 b).isLt
        omega
      rw [← postLength_eq_place]
      exact ParserSteps.exec_headS7_of ⟨hc, hw, hp, (b1Byte_fields b).symm ▸ hb⟩ hlen

/-- In a header phase the instruction of a byte does what `headerByte` says. -/
theorem exec_decodeByte (hc : s.ctx = some c) (hw : c.wait = .running) (hphase : s.ps.phase.toNat ≤ 3)
    (hwf : wf s.ps = true) (hb : [b] <+: c.rest) :
    exec (decodeByte s.ps.phase b) s = .next (place c s (headerByte s.ps b)) := by
  rcases Encoding.phase_cases (show s.ps.phase.toNat ≤ 4 by omega) with hp | hp | hp | hp | hp
  case inl =>
    rw [show decodeByte s.ps.phase b = .start (b0Fin b) (b0Rsv b) (b0Opcode b) by rw [hp]; rfl,
      headerByte_start b hp]
    exact ParserSteps.exec_start_of ⟨hc, hw, hp, (b0Byte_fields b).symm ▸ hb⟩
  case inr.inl =>
    rw [show decodeByte s.ps.phase b = decodeB1 b by rw [hp]; rfl, headerByte_head b hp]
    exact exec_decodeB1 hc hw hp hb
  case inr.inr.inl =>
    obtain ⟨_, hpos, hle, _⟩ := (wfCore_length hp).mp (wfCore_of_wf hwf)
    rw [show decodeByte s.ps.phase b = .lenb b by rw [hp]; rfl, headerByte_length b hp, lengthByte]
    split
    case isTrue hlast =>
      rw [← postLength_eq_place]
      exact ParserSteps.exec_lenb_last ⟨hc, hw, hp, hb⟩ hlast
    case isFalse hmore => exact ParserSteps.exec_lenb_more ⟨hc, hw, hp, hb⟩ hpos hle hmore
  case inr.inr.inr.inl =>
    obtain ⟨_, _, hpos, hle, _⟩ := (wfCore_mask hp).mp (wfCore_of_wf hwf)
    rw [show decodeByte s.ps.phase b = .maskb b by rw [hp]; rfl, headerByte_mask b hp, keyByteStep]
    split
    case isTrue hlast =>
      rw [← postMask_eq_place]
      exact ParserSteps.exec_maskb_last ⟨hc, hw, hp, hb⟩ hlast
    case isFalse hmore => exact ParserSteps.exec_maskb_more ⟨hc, hw, hp, hb⟩ hpos hle hmore
  case inr.inr.inr.inr =>
    rw [hp] at hphase
    exact absurd hphase (by decide)

end

/-! ### One round -/

theorem lengthDone_phase {p : ParserState} (h : (lengthDone p).2 = false) :
    (lengthDone p).1.phase = phaseMask := by
  by_cases hmask : p.hasMask = true
  · rw [lengthDone, if_pos hmask]
  · rw [lengthDone, if_neg hmask] at h
    cases h

/-- A header byte that does not come to HEADER does not lead to Body. -/
theorem headerByte_phase {p : ParserState} {b : Byte} (hvalid : p.phase.toNat ≤ 4) (hphase : p.phase ≠ phaseBody)
    (h : (headerByte p b).2 = false) : (headerByte p b).1.phase ≠ phaseBody := by
  have masked {q : ParserState} (h : (lengthDone q).2 = false) : (lengthDone q).1.phase ≠ phaseBody := by
    rw [lengthDone_phase h]
    decide
  rcases Encoding.phase_cases hvalid with hp | hp | hp | hp | hp
  · simp [headerByte_start b hp]
  · rw [headerByte_head b hp, headByte] at h ⊢
    split_ifs at h ⊢
    · simp
    · simp
    · exact masked h
  · rw [headerByte_length b hp, lengthByte] at h ⊢
    split_ifs at h ⊢
    · exact masked h
    · simp [hp]
  · rw [headerByte_mask b hp, keyByteStep] at h ⊢
    split_ifs at h ⊢
    simp [hp]
  · exact absurd hp hphase

section
variable {s : State} {c : ExecCtx}

theorem wf_of_running (hs : Driven s) (hc : s.ctx = some c) (hw : c.wait = .running) : wf s.ps = true := by
  obtain ⟨_, _, _, hshape⟩ := inv_iff.mp hs.inv
  exact ((shaped_running hc hw).mp hshape).2

/-- A round in a header phase takes one byte. -/
theorem round_header_absorbs {b : Byte} {rest : List Byte} (hs : Driven s) (hc : s.ctx = some c) (hw : c.wait = .running)
    (hrest : c.rest = b :: rest) (hphase : s.ps.phase ≠ phaseBody) : ∃ m o u, m ≤ 5 ∧
    RoundTo s s c m 1 o u ∧ Absorbs s.cbEn s.ps [b] o u.ps := by
  have hwf := wf_of_running hs hc hw
  have hvalid := HostOps.phase_le_of_wfCore (wfCore_of_wf hwf)
  have hheader : s.ps.phase.toNat ≤ 3 := by bv_omega
  have hfront : bytesInFront s.ps c.rest = [b] := by
    have hno : ¬ invalidPhase s.ps = true := by simp [(wfCore_valid (wfCore_of_wf hwf)).2]
    rw [bytesInFront, if_neg hno, if_neg hphase, hrest]
    rfl
  have hdecode : decode s.params (.step s.ps.phase (bytesInFront s.ps c.rest)) =
      .ok (decodeByte s.ps.phase b) := by
    have h5 : ¬ 5 ≤ s.ps.phase.toNat := by omega
    rw [hfront, decode, decodeStep, if_neg h5, if_neg hphase]
    rfl
  have hdrive : drive s = .next (place c s (headerByte s.ps b)) := by
    rw [drive_running hc hw (by simp [hrest]) hdecode]
    exact exec_decodeByte hc hw hheader hwf (by simp [hrest])
  rcases hbyte : headerByte s.ps b with ⟨q, ev⟩
  rw [hbyte] at hdrive
  have habsorb : absorbAll s.cbEn s.ps [b] = if ev then absorbHeader s.cbEn q else (q, []) := by
    rw [absorbAll_singleton, absorb, if_neg hphase, hbyte]
  simp only [Absorbs, habsorb, frameOf_header hphase]
  cases ev with
  | true =>
    obtain ⟨m, o, u, hm, ⟨hdrive', hhost, hout⟩, hgives⟩ := drive_header (drive_driven hs hdrive)
    exact ⟨1 + m, o, u, by omega, ⟨driveN_trans (driveN_one hdrive) hdrive', hhost, hout⟩, hgives⟩
  | false =>
    refine ⟨1, [], s.withPs q, by omega, ⟨driveN_one hdrive, ⟨rfl, rfl, rfl, rfl, rfl⟩, by simp⟩, ?_⟩
    have hq : q.phase ≠ phaseBody := by
      have h := headerByte_phase (b := b) hvalid hphase (by rw [hbyte])
      rwa [hbyte] at h
    refine ⟨rfl, rfl, rfl, fun _ o' hok => ?_⟩
    rwa [withPs_ps, frameOf_header hq] at hok

/-- A round in Body takes the run to the end of the frame or of the buffer. -/
theorem round_body_absorbs (hs : Driven s) (hc : s.ctx = some c) (hw : c.wait = .running) (hrest : c.rest ≠ [])
    (hphase : s.ps.phase = phaseBody) : ∃ m k o u, m ≤ 5 ∧ 1 ≤ k ∧ k ≤ c.rest.length ∧
    RoundTo s s c m k o u ∧ Absorbs s.cbEn s.ps (c.rest.take k) o u.ps := by
  have hwf := wf_of_running hs hc hw
  obtain ⟨_, hpos, _, _⟩ := (wfCore_body hphase).mp (wfCore_of_wf hwf)
  have hlen := List.length_pos_iff.mpr hrest
  have hkn : runLength s.ps.remaining c.rest.length ≤ c.rest.length := Nat.min_le_right _ _
  have hk1 : 1 ≤ runLength s.ps.remaining c.rest.length := Nat.le_min.mpr ⟨hpos, hlen⟩
  have hkrem : runLength s.ps.remaining c.rest.length ≤ s.ps.remaining.toNat := Nat.min_le_left _ _
  have hrun := List.length_take_of_le hkn
  have hfront : bytesInFront s.ps c.rest = c.rest.take (runLength s.ps.remaining c.rest.length) := by
    simp [bytesInFront, invalidPhase, hphase]
  obtain ⟨b, run, hcons⟩ := List.exists_cons_of_length_pos (hrun.symm ▸ hk1)
  have hdecode : decode s.params (.step s.ps.phase (bytesInFront s.ps c.rest)) = .ok (.bodyrun (b :: run)) := by
    rw [hfront, hcons, hphase]
    rfl
  have hsel : Selects s c phaseBody (b :: run) := ⟨hc, hw, hphase, hcons ▸ List.take_prefix _ _⟩
  rw [hcons] at hrun
  have hdrive : drive s = .next (reachEmit (.body (b :: run).length) c s) := by
    rw [drive_running hc hw hrest hdecode]
    exact ParserSteps.exec_bodyrun_of hsel (by simp) hpos hrun
  rw [hrun] at hdrive
  obtain ⟨m, o, u, hm, ⟨hdrive', hhost, hout⟩, hgives⟩ := drive_body (drive_driven hs hdrive) hk1 hkn
  refine ⟨1 + m, _, o, u, by omega, hk1, hkn, ⟨driveN_trans (driveN_one hdrive) hdrive', hhost, hout⟩, ?_⟩
  rw [hcons] at hgives ⊢
  rwa [Absorbs, absorbAll_run s.cbEn s.ps b run hphase (hrun ▸ hkrem)]

theorem round_absorbs (hs : Driven s) (hc : s.ctx = some c) (hw : c.wait = .running) (hrest : c.rest ≠ []) :
    ∃ m k o u, m ≤ 5 ∧ 1 ≤ k ∧ k ≤ c.rest.length ∧
    RoundTo s s c m k o u ∧ Absorbs s.cbEn s.ps (c.rest.take k) o u.ps := by
  by_cases hphase : s.ps.phase = phaseBody
  case pos => exact round_body_absorbs hs hc hw hrest hphase
  case neg =>
    obtain ⟨b, rest, hcons⟩ := List.exists_cons_of_ne_nil hrest
    obtain ⟨m, o, u, hm, hround, habsorbs⟩ := round_header_absorbs hs hc hw hcons hphase
    exact ⟨m, 1, o, u, hm, le_rfl, List.length_pos_iff.mpr hrest, hround, by rwa [hcons]⟩

end

/-! ### The whole buffer -/

/-- The block is idle again; beside the events of `bytes` it has sent the one count `n`. -/
structure Completed (s : State) (n : Nat) (bytes : List Byte) (t : State) : Prop where
  idle : t.ctx = none
  host : SameHost s t
  sends : ∃ o rot, t.out = s.out ++ (o ++ [.rsp { consumed := n, newRot := rot }]) ∧
    Absorbs s.cbEn s.ps bytes o t.ps

/-- Every round takes at least one byte in at most five driven steps. -/
theorem run_completes (len : Nat) {s : State} {c : ExecCtx} (hlen : c.rest.length = len) (hs : Driven s)
    (hc : s.ctx = some c) (hw : c.wait = .running) (hrest : c.rest ≠ []) :
    ∃ m t, m ≤ 5 * len ∧ driveN m s = .next t ∧ Completed s c.n c.rest t := by
  induction len using Nat.strong_induction_on generalizing s c with
  | _ len ih =>
    obtain ⟨m, k, o, u, hm, hk1, hkn, ⟨hdrive, hhost, hout⟩, habsorbs⟩ := round_absorbs hs hc hw hrest
    have hadvance := advance_advancedBy k c u
    unfold AdvancedBy at hadvance
    have hps : (advance k c u).ps = u.ps := advance_ps k c u
    have hhost' : SameHost s (advance k c u) :=
      Writers.sameHost_trans hhost (ParserSteps.advance_withPs_sameHost k c u u.ps)
    split at hadvance
    case isTrue hmore =>
      obtain ⟨hctx, hout'⟩ := hadvance
      have hdrop : (c.rest.drop k).length = len - k := by rw [List.length_drop, hlen]
      obtain ⟨m', t, hm', hdrive', ⟨hidle, hhost'', o', rot, hout'', habsorbs'⟩⟩ :=
        ih (len - k) (by omega) hdrop (driveN_driven hs hdrive) hctx rfl (by simpa using hmore)
      rw [hps, hhost'.1] at habsorbs'
      refine ⟨m + m', t, by omega, driveN_trans hdrive hdrive', hidle, Writers.sameHost_trans hhost' hhost'',
        o ++ o', rot, ?_, ?_⟩
      · rw [hout'', hout', hout]
        simp only [List.append_assoc]
      · have htrans := habsorbs.trans habsorbs'
        rwa [List.take_append_drop] at htrans
    case isFalse hlast =>
      obtain ⟨hidle, rot, hout'⟩ := hadvance
      refine ⟨m, _, by omega, hdrive, hidle, hhost', o, rot, ?_, ?_⟩
      · rw [hout', hout, List.append_assoc]
      · rwa [hps, ← List.take_of_length_le (show c.rest.length ≤ k by omega)]

/-- What an EXECUTE is asked of: idle, WF, not aborted, and the host silent. -/
structure Ready (s : State) : Prop where
  driven : Driven s
  idle : s.ctx = none
  live : s.aborted = false

theorem Ready.wf {s : State} (h : Ready s) : wf s.ps = true := by
  obtain ⟨_, _, _, hshape⟩ := inv_iff.mp h.driven.inv
  have hcore := (shaped_idle h.idle).mp hshape
  rw [h.live] at hcore
  exact wf_iff.mpr ⟨hcore, h.driven.rotation⟩

theorem ready_of {s : State} (hinv : s.inv = true) (hwf : Machine.wf s.ps = true) (hc : s.ctx = none)
    (hab : s.aborted = false) (hin : s.inbox = []) : Ready s :=
  ⟨⟨hinv, (wf_iff.mp hwf).2, hin⟩, hc, hab⟩

theorem driven_execute {s s' : State} {buf : List Byte} (hs : Ready s) (hcount : buf.length < 2 ^ s.params.cntW)
    (h : exec (.execute buf) s = .next s') : Driven s' :=
  ⟨exec_inv h (decide_eq_true hcount) hs.driven.inv,
    Writers.rotationClauseKept _ _ _ hs.driven.rotation (by simp) h,
    (Writers.exec_keeps_params_inbox h).2.trans hs.driven.inbox⟩

/-- EXECUTE of any buffer that fits the count completes, and leaves the block as it has to be for the next. -/
theorem execute_completes {s : State} (hs : Ready s) (buf : List Byte) (hcount : buf.length < 2 ^ s.params.cntW) :
    ∃ k t, k ≤ 5 * buf.length ∧ RunsTo buf s k t ∧ Completed s buf.length buf t ∧ Ready t := by
  have htable : IdleInTable s := ⟨hs.idle, .inr (.inr (.inr hs.wf))⟩
  have hready {t : State} (hd : Driven t) (h : Completed s buf.length buf t) : Ready t :=
    ⟨hd, h.idle, h.host.2.1.trans hs.live⟩
  cases buf with
  | nil =>
    have hexec := HostOps.exec_execute_nil htable hs.live
    obtain ⟨hidle, rot, hout⟩ := finish_ended 0 s
    have hdone : Completed s 0 [] (finish 0 s) :=
      ⟨hidle, ⟨rfl, rfl, rfl, rfl, rfl⟩, [], rot, hout, Absorbs.refl s.cbEn s.ps⟩
    exact ⟨0, _, le_rfl, ⟨_, hexec, rfl, hidle⟩, hdone, hready (driven_execute hs hcount hexec) hdone⟩
  | cons b p =>
    have hexec := Exceptions.exec_execute_cons b p htable hs.live
    have hstart := driven_execute hs hcount hexec
    obtain ⟨m, t, hm, hdrive, hdone⟩ := run_completes _ rfl hstart rfl rfl (List.cons_ne_nil b p)
    -- the context the EXECUTE starts with is all that tells its first state from `s`
    have hdone : Completed s (b :: p).length (b :: p) t := ⟨hdone.idle, hdone.host, hdone.sends⟩
    exact ⟨m, t, hm, ⟨_, hexec, hdrive, hdone.idle⟩, hdone, hready (driveN_driven hstart hdrive) hdone⟩

/-! ### The statements about runs -/

/-- Settles O56: at most five driven steps a byte, and the only count sent is that of the completion. -/
theorem executeCompletes : Obligations.ExecuteCompletes := by
  unfold Obligations.ExecuteCompletes
  intro s buf hinv hwf hc hab hin hcount
  obtain ⟨k, t, hk, hruns, ⟨_, _, o, rot, hout, habsorbs⟩, hready⟩ :=
    execute_completes (ready_of hinv hwf hc hab hin) buf hcount
  refine ⟨k, t, _, hk, hruns, hout, ?_, hready.driven.inv, hready.wf, hready.live, hready.driven.inbox⟩
  rw [counts_append, habsorbs.counts]
  rfl

/-- Settles O57: both ways ParserState and the items are those of the bytes read one by one. -/
theorem chunkBoundaryInvariance : Obligations.ChunkBoundaryInvariance := by
  unfold Obligations.ChunkBoundaryInvariance
  intro s a b hinv hwf hc hab hin hcount
  have hs := ready_of hinv hwf hc hab hin
  rw [List.length_append] at hcount
  obtain ⟨k1, t1, _, hruns1, ⟨_, hhost1, o1, rot1, hout1, h1⟩, hready1⟩ := execute_completes hs a (by omega)
  have hcb1 : t1.cbEn = s.cbEn := hhost1.1
  have hparams1 : t1.params = s.params := hhost1.2.2.2.2
  obtain ⟨k2, t2, _, hruns2, ⟨_, hhost2, o2, rot2, hout2, h2⟩, _⟩ :=
    execute_completes hready1 b (by rw [hparams1]; omega)
  obtain ⟨k, t, _, hruns, ⟨_, hhost, o, rot, hout, h⟩, _⟩ :=
    execute_completes hs (a ++ b) (by rwa [List.length_append])
  rw [hcb1] at h2
  have hboth := h1.trans h2
  have hrsp (r : RspRecord) : items [.rsp r] = [] := rfl
  refine ⟨k1, t1, _, k2, t2, _, k, t, _, hruns1, hout1, hruns2, hout2, hruns, hout, ?_, ?_, ?_, ?_, ?_, ?_⟩
  · rw [counts_append, h1.counts]
    rfl
  · rw [counts_append, h2.counts]
    rfl
  · rw [counts_append, h.counts, List.length_append]
    rfl
  · rw [hboth.ps, h.ps]
  · exact Writers.sameHost_trans (Writers.sameHost_symm hhost) (Writers.sameHost_trans hhost1 hhost2)
  · rw [items_append, items_append, items_append, hrsp, hrsp, hrsp, List.append_nil, List.append_nil,
      List.append_nil, ← items_append, hboth.items, h.items]

/-- An idle block with a silent host stays idle, so a run that has ended has one end. -/
theorem driveN_unique {j k : Nat} {s t u : State} (hs : Driven s) (ht : driveN j s = .next t)
    (hidle : t.ctx = none) (hu : driveN k s = .next u) (hidle' : u.ctx = none) : u = t := by
  have later {j k : Nat} {t u : State} (hjk : j ≤ k) (ht : driveN j s = .next t) (hidle : t.ctx = none)
      (hu : driveN k s = .next u) : u = t := by
    obtain ⟨d, rfl⟩ := Nat.exists_eq_add_of_le hjk
    rw [driveN_of_next d ht, driveN_idle d hidle (driveN_driven hs ht).inbox] at hu
    cases hu
    rfl
  obtain h | h := Nat.le_total j k
  · exact later h ht hidle hu
  · exact (later h hu hidle' ht).symm

/-- Between two EXECUTEs a frame is begun and not yet finished, or there is none. -/
theorem framesOk_completion {p : ParserState} (hwf : wf p = true) (r : RspRecord) :
    framesOk (frameOf p) [.rsp r] = true := by
  by_cases hphase : p.phase = phaseBody
  case pos =>
    obtain ⟨_, hpos, hle, hbody⟩ := (wfCore_body hphase).mp (wfCore_of_wf hwf)
    rw [frameOf_body hphase]
    exact decide_eq_true (by omega)
  case neg =>
    rw [frameOf_header hphase]
    rfl

/-- Settles O58: the run is the one that completes, and its records follow R132 from the frame boundary on. -/
theorem eventsComeInFrames : Obligations.EventsComeInFrames := by
  unfold Obligations.EventsComeInFrames
  intro s t buf k o hinv hin hab hphase hcb hcount hruns hout
  obtain ⟨s', hexec, hdrive, hidle⟩ := hruns
  obtain ⟨hadmits, _⟩ := admitted_next (show execExecute buf s = .next s' from hexec)
  have hc : s.ctx = none := admits_idle hadmits (.inr (.inr rfl))
  have hs : Ready s := ⟨⟨hinv, wfRotation_of_phase (.inl hphase), hin⟩, hc, hab⟩
  obtain ⟨k', t', _, ⟨s'', hexec', hdrive', hidle'⟩, ⟨_, _, o', rot, hout', habsorbs⟩, hready⟩ :=
    execute_completes hs buf hcount
  obtain rfl : s' = s'' := Host.Outcome.next.inj (hexec.symm.trans hexec')
  obtain rfl : t' = t := driveN_unique (driven_execute hs hcount hexec) hdrive hidle hdrive' hidle'
  obtain rfl := List.append_cancel_left (hout.symm.trans hout')
  have hboundary : frameOf s.ps = none := frameOf_header (by rw [hphase]; decide)
  rw [← hboundary]
  exact habsorbs.frames hcb _ (framesOk_completion hready.wf _)

end Sys2Proof.Runs
